-- ==== Sys2Proof/Word.lean ====
section
/-! DEFINITION. The word types of the machine (spec/00_scope.md R8, R9): bytes, 16-bit words, the
fields of an instruction word, and register numbers. All values are unsigned. -/

namespace Sys2Proof

/-- An 8-bit value: a general register, a timer, a memory cell, the immediate `nn` (R21, R32, R51). -/
abbrev Byte := BitVec 8

/-- A 16-bit value: `I`, `PC`, a stack entry, an instruction word (R25, R26, R29, R80). -/
abbrev Word := BitVec 16

/-- The number of a general register, selected by the field `x` or `y` (R21, R81). -/
abbrev Reg := Fin 16

/-- A 12-bit address immediate `nnn` (R81, R83). -/
abbrev Addr12 := BitVec 12

/-- A 4-bit field (R8). -/
abbrev Nibble := BitVec 4

/-- The register that doubles as the flags register, `VF` (R22). -/
abbrev VF : Reg := 15

end Sys2Proof
end

