-- ==== Sys2Proof/Machine/Flags.lean ====
section
/-! DEFINITION. The values that flag-writing instructions leave in `VF`, always exactly 0 or 1
(spec/10_state.md R22), and the results beside them (spec/43_alu.md R135 to R140). Every one is computed
from the operand values at the start of the instruction (R23). -/

namespace Sys2Proof.Machine

/-- A flag as the byte that `VF` gets: 1 or 0 (R22). -/
def flagByte (b : Bool) : Byte := if b then 1 else 0

/-- The carry out of bit 7 of a sum: `a + b > 255` (R135). -/
def carry (a b : Byte) : Bool := a.toNat + b.toNat > 255

/-- The flag of a subtraction: the minuend is strictly greater (R136, R138). -/
def strictlyGreater (a b : Byte) : Bool := a.toNat > b.toNat

/-- The bit that a right shift by 1 shifts out (R137). -/
def lowBit (a : Byte) : Bool := a.getLsbD 0

/-- The bit that a left shift by 1 shifts out (R139). -/
def topBit (a : Byte) : Bool := a.getLsbD 7

/-- `(a + b) mod 256` (R122, R135). -/
def addByte (a b : Byte) : Byte := BitVec.ofNat 8 (a.toNat + b.toNat)

/-- `(a - b) mod 256` (R136, R138; log entry 16). -/
def subByte (a b : Byte) : Byte := BitVec.ofNat 8 (a.toNat + 256 - b.toNat)

/-- `a >> 1`, logical (R137). -/
def shiftRight1 (a : Byte) : Byte := BitVec.ofNat 8 (a.toNat / 2)

/-- `(a << 1) mod 256` (R139; log entry 16). -/
def shiftLeft1 (a : Byte) : Byte := BitVec.ofNat 8 (a.toNat * 2)

/-- The three decimal digits of a byte, hundreds first, each a binary number 0..9 (R154). -/
def bcdDigits (b : Byte) : List Byte :=
  [BitVec.ofNat 8 (b.toNat / 100), BitVec.ofNat 8 (b.toNat / 10 % 10), BitVec.ofNat 8 (b.toNat % 10)]

end Sys2Proof.Machine
end

