-- ==== Sys2Proof/Syntax.lean ====
section
/-! DEFINITION. The instructions: one constructor per row of the opcode map
(spec/30_encoding.md R88), in its order. Every operand type holds exactly the values its field can
hold (R81, R83), so every term of `Instr` is an instruction the machine has. -/

namespace Sys2Proof

/-- The 34 instructions of R88. `x`, `y`: register numbers; `nn`: 8-bit immediate; `nnn`: 12-bit
address; `n`: the 4-bit row count. -/
inductive Instr where
  /-- `00E0` CLS (R171) -/
  | cls
  /-- `00EE` RET (R101) -/
  | ret
  /-- `1nnn` JP nnn (R102) -/
  | jp (nnn : Addr12)
  /-- `2nnn` CALL nnn (R103) -/
  | call (nnn : Addr12)
  /-- `3xnn` SE Vx, nn (R111) -/
  | seImm (x : Reg) (nn : Byte)
  /-- `4xnn` SNE Vx, nn (R112) -/
  | sneImm (x : Reg) (nn : Byte)
  /-- `5xy0` SE Vx, Vy (R113) -/
  | seReg (x y : Reg)
  /-- `6xnn` LD Vx, nn (R121) -/
  | ldImm (x : Reg) (nn : Byte)
  /-- `7xnn` ADD Vx, nn (R122) -/
  | addImm (x : Reg) (nn : Byte)
  /-- `8xy0` LD Vx, Vy (R131) -/
  | ldReg (x y : Reg)
  /-- `8xy1` OR Vx, Vy (R132) -/
  | orReg (x y : Reg)
  /-- `8xy2` AND Vx, Vy (R133) -/
  | andReg (x y : Reg)
  /-- `8xy3` XOR Vx, Vy (R134) -/
  | xorReg (x y : Reg)
  /-- `8xy4` ADD Vx, Vy (R135) -/
  | addReg (x y : Reg)
  /-- `8xy5` SUB Vx, Vy (R136) -/
  | subReg (x y : Reg)
  /-- `8xy6` SHR Vx {, Vy}: `y` is encoded but has no effect (R91, R137) -/
  | shr (x y : Reg)
  /-- `8xy7` SUBN Vx, Vy (R138) -/
  | subnReg (x y : Reg)
  /-- `8xyE` SHL Vx {, Vy}: `y` is encoded but has no effect (R91, R139) -/
  | shl (x y : Reg)
  /-- `9xy0` SNE Vx, Vy (R114) -/
  | sneReg (x y : Reg)
  /-- `Annn` LD I, nnn (R151) -/
  | ldI (nnn : Addr12)
  /-- `Bnnn` JP V0, nnn (R104) -/
  | jpV0 (nnn : Addr12)
  /-- `Cxnn` RND Vx, nn (R124) -/
  | rnd (x : Reg) (nn : Byte)
  /-- `Dxyn` DRW Vx, Vy, n (R173) -/
  | drw (x y : Reg) (n : Nibble)
  /-- `Ex9E` SKP Vx (R181) -/
  | skp (x : Reg)
  /-- `ExA1` SKNP Vx (R182) -/
  | sknp (x : Reg)
  /-- `Fx07` LD Vx, DT (R191) -/
  | ldVxDt (x : Reg)
  /-- `Fx0A` LD Vx, K (R183) -/
  | ldVxK (x : Reg)
  /-- `Fx15` LD DT, Vx (R192) -/
  | ldDtVx (x : Reg)
  /-- `Fx18` LD ST, Vx (R193) -/
  | ldStVx (x : Reg)
  /-- `Fx1E` ADD I, Vx (R152) -/
  | addI (x : Reg)
  /-- `Fx29` LD F, Vx (R153) -/
  | ldF (x : Reg)
  /-- `Fx33` LD B, Vx (R154) -/
  | ldB (x : Reg)
  /-- `Fx55` LD [I], Vx: the register dump (R155) -/
  | dump (x : Reg)
  /-- `Fx65` LD Vx, [I]: the register load (R156) -/
  | load (x : Reg)
  deriving DecidableEq, Repr

end Sys2Proof
end

