-- ==== Sys2Proof/Decode.lean ====
section
/-! DEFINITION. The decoder (spec/30_encoding.md R80 to R90), total on words and on bytes and rejecting
by name, and after it the encoder, written from the formats of R82 and the patterns of R88. Fetching
is big-endian (spec/20_memory.md R55). -/

namespace Sys2Proof

/-- Why a word, or a list of bytes, is no instruction. One name per row of the table of illegal words
in R90 (raised as `DecodeError`, R202), and one for bytes too short to hold a word (R80). -/
inductive Reject where
  /-- Fewer than two bytes: no whole instruction word (R80). -/
  | truncated
  /-- Class 0, but neither `00E0` nor `00EE` (R90). -/
  | class0
  /-- `5xyn` with `n` not 0 (R90). -/
  | class5
  /-- `8xyn` with `n` in 8..D or F (R90). -/
  | class8
  /-- `9xyn` with `n` not 0 (R90). -/
  | class9
  /-- `Exnn` with `nn` neither 9E nor A1 (R90). -/
  | classE
  /-- `Fxnn` with `nn` none of the nine of R86 (R90). -/
  | classF
  deriving DecidableEq, Repr

/-! ### Fields (R81) -/

/-- `op = w[15:12]`, the opcode class. -/
def opOf (w : Word) : Nibble := w.extractLsb' 12 4

/-- `x = w[11:8]`, a register number. -/
def xOf (w : Word) : Reg := (w.extractLsb' 8 4).toFin

/-- `y = w[7:4]`, a register number. -/
def yOf (w : Word) : Reg := (w.extractLsb' 4 4).toFin

/-- `n = w[3:0]`, a row count or the secondary opcode of classes 5, 8, 9. -/
def nOf (w : Word) : Nibble := w.extractLsb' 0 4

/-- `nn = w[7:0]`, an immediate or the secondary opcode of classes E, F. -/
def nnOf (w : Word) : Byte := w.extractLsb' 0 8

/-- `nnn = w[11:0]`, an address. -/
def nnnOf (w : Word) : Addr12 := w.extractLsb' 0 12

/-! ### Secondary dispatch (R86, R87) -/

/-- Class 0, on the whole word. -/
def decodeClass0 (w : Word) : Except Reject Instr :=
  if w = 0x00E0 then .ok .cls
  else if w = 0x00EE then .ok .ret
  else .error .class0

/-- Class 8, on `n`. -/
def decodeClass8 (w : Word) : Except Reject Instr :=
  let x := xOf w
  let y := yOf w
  match (nOf w).toNat with
  | 0x0 => .ok (.ldReg x y)
  | 0x1 => .ok (.orReg x y)
  | 0x2 => .ok (.andReg x y)
  | 0x3 => .ok (.xorReg x y)
  | 0x4 => .ok (.addReg x y)
  | 0x5 => .ok (.subReg x y)
  | 0x6 => .ok (.shr x y)
  | 0x7 => .ok (.subnReg x y)
  | 0xE => .ok (.shl x y)
  | _ => .error .class8

/-- Class E, on `nn`. -/
def decodeClassE (w : Word) : Except Reject Instr :=
  if nnOf w = 0x9E then .ok (.skp (xOf w))
  else if nnOf w = 0xA1 then .ok (.sknp (xOf w))
  else .error .classE

/-- Class F, on `nn`. -/
def decodeClassF (w : Word) : Except Reject Instr :=
  let x := xOf w
  let nn := nnOf w
  if nn = 0x07 then .ok (.ldVxDt x)
  else if nn = 0x0A then .ok (.ldVxK x)
  else if nn = 0x15 then .ok (.ldDtVx x)
  else if nn = 0x18 then .ok (.ldStVx x)
  else if nn = 0x1E then .ok (.addI x)
  else if nn = 0x29 then .ok (.ldF x)
  else if nn = 0x33 then .ok (.ldB x)
  else if nn = 0x55 then .ok (.dump x)
  else if nn = 0x65 then .ok (.load x)
  else .error .classF

/-- The decoder on a word: primary dispatch on the opcode class, then the secondary dispatch of the
classes that have one (R85, R86). Every fixed nibble must match (R87, log entry 15). -/
def decodeWord (w : Word) : Except Reject Instr :=
  let x := xOf w
  let y := yOf w
  match (opOf w).toNat with
  | 0x0 => decodeClass0 w
  | 0x1 => .ok (.jp (nnnOf w))
  | 0x2 => .ok (.call (nnnOf w))
  | 0x3 => .ok (.seImm x (nnOf w))
  | 0x4 => .ok (.sneImm x (nnOf w))
  | 0x5 => if nOf w = 0 then .ok (.seReg x y) else .error .class5
  | 0x6 => .ok (.ldImm x (nnOf w))
  | 0x7 => .ok (.addImm x (nnOf w))
  | 0x8 => decodeClass8 w
  | 0x9 => if nOf w = 0 then .ok (.sneReg x y) else .error .class9
  | 0xA => .ok (.ldI (nnnOf w))
  | 0xB => .ok (.jpV0 (nnnOf w))
  | 0xC => .ok (.rnd x (nnOf w))
  | 0xD => .ok (.drw x y (nOf w))
  | 0xE => decodeClassE w
  | _ => decodeClassF w

/-! ### Bytes (R55, R59, R80) -/

/-- The word held by two consecutive bytes: the byte at the lower address is the high byte (R55). -/
def wordOfBytes (hi lo : Byte) : Word := hi ++ lo

/-- The high byte of a word, which stands at the lower address (R55). -/
def hiByte (w : Word) : Byte := w.extractLsb' 8 8

/-- The low byte of a word, which stands at the higher address (R55). -/
def loByte (w : Word) : Byte := w.extractLsb' 0 8

/-- The decoder on bytes: the instruction at the head of the list and the bytes after it. Every
instruction is exactly two bytes long (R80). -/
def decode : List Byte → Except Reject (Instr × List Byte)
  | hi :: lo :: rest =>
    match decodeWord (wordOfBytes hi lo) with
    | .ok i => .ok (i, rest)
    | .error e => .error e
  | _ => .error .truncated

/-! ### The encoder, by the formats of R82 -/

/-- Format NNN. -/
def encodeNNN (op : Nibble) (nnn : Addr12) : Word := op ++ nnn

/-- Formats XNN and X: `nn` is an immediate or the fixed secondary opcode. -/
def encodeXNN (op : Nibble) (x : Reg) (nn : Byte) : Word := op ++ (BitVec.ofFin x : Nibble) ++ nn

/-- Formats XY and XYN: `n` is the fixed secondary opcode or the row count. -/
def encodeXYN (op : Nibble) (x y : Reg) (n : Nibble) : Word :=
  op ++ (BitVec.ofFin x : Nibble) ++ (BitVec.ofFin y : Nibble) ++ n

/-- The word of an instruction (R82, R88). -/
def encode : Instr → Word
  | .cls => 0x00E0
  | .ret => 0x00EE
  | .jp nnn => encodeNNN 0x1 nnn
  | .call nnn => encodeNNN 0x2 nnn
  | .seImm x nn => encodeXNN 0x3 x nn
  | .sneImm x nn => encodeXNN 0x4 x nn
  | .seReg x y => encodeXYN 0x5 x y 0x0
  | .ldImm x nn => encodeXNN 0x6 x nn
  | .addImm x nn => encodeXNN 0x7 x nn
  | .ldReg x y => encodeXYN 0x8 x y 0x0
  | .orReg x y => encodeXYN 0x8 x y 0x1
  | .andReg x y => encodeXYN 0x8 x y 0x2
  | .xorReg x y => encodeXYN 0x8 x y 0x3
  | .addReg x y => encodeXYN 0x8 x y 0x4
  | .subReg x y => encodeXYN 0x8 x y 0x5
  | .shr x y => encodeXYN 0x8 x y 0x6
  | .subnReg x y => encodeXYN 0x8 x y 0x7
  | .shl x y => encodeXYN 0x8 x y 0xE
  | .sneReg x y => encodeXYN 0x9 x y 0x0
  | .ldI nnn => encodeNNN 0xA nnn
  | .jpV0 nnn => encodeNNN 0xB nnn
  | .rnd x nn => encodeXNN 0xC x nn
  | .drw x y n => encodeXYN 0xD x y n
  | .skp x => encodeXNN 0xE x 0x9E
  | .sknp x => encodeXNN 0xE x 0xA1
  | .ldVxDt x => encodeXNN 0xF x 0x07
  | .ldVxK x => encodeXNN 0xF x 0x0A
  | .ldDtVx x => encodeXNN 0xF x 0x15
  | .ldStVx x => encodeXNN 0xF x 0x18
  | .addI x => encodeXNN 0xF x 0x1E
  | .ldF x => encodeXNN 0xF x 0x29
  | .ldB x => encodeXNN 0xF x 0x33
  | .dump x => encodeXNN 0xF x 0x55
  | .load x => encodeXNN 0xF x 0x65

/-- The bytes of an instruction, in the order they stand in memory (R55, R80). -/
def encodeBytes (i : Instr) : List Byte := [hiByte (encode i), loByte (encode i)]

/-! ### The host's view of one opcode-table word -/

/-- The 16-bit word that a row of `nbits` bits with the value `w` lays out, every bit above the row's
own being 0. The table numbers a word's bits as R8 does. -/
def tableWord (nbits w : Nat) : Word := BitVec.ofNat 16 (w % 2 ^ nbits)

/-- The instruction the decoder reads from a row's word, laid out as two big-endian bytes. -/
def decodeTableWord (nbits w : Nat) : Option Instr :=
  match decode [hiByte (tableWord nbits w), loByte (tableWord nbits w)] with
  | .ok (i, _) => some i
  | .error _ => none

end Sys2Proof
end

