-- ==== Sys2Proof/Config.lean ====
section
/-! DEFINITION. The implementation parameters of spec/00_scope.md R5, and the one free value of the
machine, the random byte (spec/42_immediate_and_random.md R123). -/

namespace Sys2Proof.Config

/-- `MEM_SIZE`: memory is 4096 bytes, addresses 0x000..0xFFF (R5, R51). -/
def memSize : Nat := 4096

/-- `STACK_DEPTH`: entries of the call stack (R5, R29; the spec's decision D2, log entry 8). -/
abbrev stackDepth : Nat := 16

/-- `FONT_BASE`: where the font table stands (R5, R56). -/
def fontBase : Nat := 0x000

/-- `PROG_BASE`: where a program image is loaded and where execution starts (R5, R26, R243). -/
def progBase : Nat := 0x200

/-- `MAX_PROG`: the longest program image, 3584 bytes (R5, R209). -/
def maxProg : Nat := memSize - progBase

/-- `MEM_FILL`: what a byte that holds neither font nor program holds after reset (R5, R39; the
spec's decision D4, log entry 6). -/
def memFill : Byte := 0x00

/-- Columns of the display (R5, R33). -/
abbrev columns : Nat := 64

/-- Rows of the display (R5, R33). -/
abbrev rows : Nat := 32

/-- THE FREE VALUE of the machine: the `k`-th random byte that the environment supplies to an
executed `Cxnn` (R7, R123: "an arbitrary value 0..255 supplied by the environment for each step,
under no law"). It has no body here, so no proof can learn a value of it (log entry 2). -/
opaque rnd : Nat → Byte

end Sys2Proof.Config
end

