-- ==== Sys2Proof/Machine/State.lean ====
section
/-! DEFINITION. The state of the machine (spec/10_state.md R20 to R39, spec/20_memory.md R50, R51), its
fatal errors (spec/60_exceptions.md R201), the environment's events (spec/00_scope.md R6), and the
state after reset. -/

namespace Sys2Proof.Machine

/-- The fatal errors of R201. TAKING one is a NEXT state (R205: the core is halted and `FAULT_CAUSE`
holds the error's code; `raise` in Ops.lean), because the spec describes the entry and what the
machine does after it. No step of this model answers `Host.Outcome.fault`, so none of these is a stop
of the model; each is exact as to what the spec says (log entry 3). -/
inductive Fault where
  /-- Code 1. Raised by any `step` at decode, for a word that matches no pattern (R202). Safe: it is
  taken as the spec describes. -/
  | decodeError
  /-- Code 2. Raised by `2nnn` on a full stack (R203). Safe, but for the depth 16 (log entry 8). -/
  | stackOverflow
  /-- Code 3. Raised by `00EE` on an empty stack (R204). Safe: taken as the spec describes. -/
  | stackUnderflow
  /-- Code 4. Raised by fetch, `Fx33`, `Fx55`, `Fx65`, `Dxyn` on an address above 0xFFF (R207). Safe:
  taken as the spec describes. -/
  | outOfBounds
  /-- Code 5. Raised by the `load` event only, for an image over 3584 bytes (R209). Safe: taken as
  the spec describes. -/
  | romTooLarge
  /-- Code 6. Raised by `Ex9E`, `ExA1` on a key number above 15 (R208). Safe, but it rests on the
  spec's decision D11 (log entry 9). -/
  | keyIndexRange
  deriving DecidableEq, Repr

/-- What the model has no meaning for. -/
inductive Refusal where
  /-- The arm of `exec` for an instruction with no meaning yet. No arm raises it: every instruction
  of the opcode table is modelled. It would be safe. -/
  | notModelled (mnemonic : String)
  deriving DecidableEq, Repr

/-- The atomic events by which the environment drives the core (R6). -/
inductive Event where
  /-- One instruction cycle (R84). -/
  | step
  /-- The 60 Hz timer tick (R220). -/
  | tick
  /-- The keypad overwrites all 16 key bits (R180). -/
  | setKeys (keys : BitVec 16)
  /-- The renderer has taken the display buffer (R176). -/
  | drawAck
  /-- A program image is copied to memory at 0x200 (R243). -/
  | load (bytes : List Byte)
  /-- Every piece of state gets its reset value (R240). -/
  | reset
  deriving DecidableEq, Repr

/-- Memory: the listed bytes, addresses strictly rising and no entry equal to what the unlisted
address reads as (`Memory.wf`, Ops.lean). -/
abbrev Memory := List Host.Cell

/-- The display buffer, 64 columns by 32 rows of one bit: pixel (`x`, `y`), the spec's
`FB[y*64 + x]`, is bit `x` of row `y` (R33, R170). -/
abbrev Display := Vector (BitVec Config.columns) Config.rows

/-- The whole state: the rows of R20, then two fields of the model's own. -/
structure State where
  /-- `V[0..15]`, the general registers (R21). -/
  v : Vector Byte 16
  /-- `I`, the index register (R25). -/
  i : Word
  /-- `PC`, the program counter (R26). -/
  pc : Word
  /-- `STACK[0..15]`, the call stack's entries (R29). -/
  stack : Vector Word Config.stackDepth
  /-- `SP`, the number of stack entries in use, 0..16 (R29). -/
  sp : Fin (Config.stackDepth + 1)
  /-- `DT`, the delay timer (R32). -/
  dt : Byte
  /-- `ST`, the sound timer (R32). -/
  st : Byte
  /-- `MEM[0..4095]` (R51). -/
  mem : Memory
  /-- `FB[0..2047]`, the display buffer (R33). -/
  fb : Display
  /-- `KEYS[0..15]`: bit `k` is 1 when key `k` is down (R34). -/
  keys : BitVec 16
  /-- `DRAW_PENDING` (R35). -/
  drawPending : Bool
  /-- `HALTED` (R36). -/
  halted : Bool
  /-- `FAULT_CAUSE`, the code of R201 (R36). -/
  faultCause : BitVec 3
  /-- The MODEL'S OWN: how many random bytes have been consumed; the next one is
  `Config.rnd rndDraws` (R123, log entry 2). -/
  rndDraws : Nat
  /-- The MODEL'S OWN: the environment's coming events, the next first; when none is listed the
  environment issues `step` (R6, log entry 1). -/
  schedule : List Event
  deriving DecidableEq, Repr

/-- The state after the `reset` event (R39, R240). Only `PC`, the font and the program placement are
the source's; the zeros are the spec's decision D3 (log entries 4, 5). Memory lists nothing, so it
reads as the font table and `MEM_FILL`. -/
def State.reset : State where
  v := Vector.replicate 16 0
  i := 0
  pc := 0x200
  stack := Vector.replicate Config.stackDepth 0
  sp := 0
  dt := 0
  st := 0
  mem := []
  fb := Vector.replicate Config.rows 0
  keys := 0
  drawPending := false
  halted := false
  faultCause := 0
  rndDraws := 0
  schedule := []

end Sys2Proof.Machine
end

