-- ==== Sys2Proof/Machine/Ops.lean ====
section
/-! DEFINITION. The named operations over memory, registers, the program counter, the call stack and
the display, fault entry, and instruction fetch. Every meaning is written over these. -/

namespace Sys2Proof.Machine

/-- What a step answers. -/
abbrev Result := Host.Outcome State Fault Refusal

/-! ### Memory (spec/20_memory.md R51 to R60) -/

/-- What an address that is not listed reads as: the font table in 0x000..0x04F, `MEM_FILL` elsewhere,
which is the content after reset (R39, R56). -/
def Memory.unlisted (a : Nat) : Byte :=
  if Config.fontBase ≤ a then font.getD (a - Config.fontBase) Config.memFill else Config.memFill

/-- An address is valid if and only if it is at most 0xFFF (R52). -/
def Memory.valid (a : Nat) : Bool := a ≤ 0xFFF

/-- The byte at an address (R53); its bound is checked by the instruction (`Memory.valid`). -/
def Memory.read (m : Memory) (a : Nat) : Byte :=
  match m with
  | [] => Memory.unlisted a
  | (b, w) :: rest => if a = b then w else Memory.read rest a

/-- `m` with nothing listed at `a`. -/
def Memory.erase (m : Memory) (a : Nat) : Memory := m.filter (fun c => c.1 ≠ a)

/-- `m` with the cell `(a, w)` put before the first listed address above `a`. -/
def Memory.insert (m : Memory) (a : Nat) (w : Byte) : Memory :=
  match m with
  | [] => [(a, w)]
  | c :: rest => if a < c.1 then (a, w) :: c :: rest else c :: Memory.insert rest a w

/-- Write one byte (R54); its bound is checked by the instruction (`Memory.valid`). A byte equal to
what the unlisted address reads as is not listed. -/
def Memory.write (m : Memory) (a : Nat) (w : Byte) : Memory :=
  if w = Memory.unlisted a then m.erase a else (m.erase a).insert a w

/-- Write consecutive bytes at ascending addresses from `a` (R59). -/
def Memory.writeBytes (m : Memory) (a : Nat) (bytes : List Byte) : Memory :=
  match bytes with
  | [] => m
  | w :: rest => Memory.writeBytes (m.write a w) (a + 1) rest

/-- Read `n` consecutive bytes at ascending addresses from `a` (R59). -/
def Memory.readBytes (m : Memory) (a n : Nat) : List Byte :=
  (List.range n).map fun k => m.read (a + k)

/-- A list of cells has strictly rising addresses, all at least `low`. -/
def Memory.rising (low : Nat) (m : Memory) : Bool :=
  match m with
  | [] => true
  | c :: rest => low ≤ c.1 && Memory.rising (c.1 + 1) rest

/-- The canonical form: addresses strictly rising, every address valid, and no entry equal to what
the unlisted address reads as. -/
def Memory.wf (m : Memory) : Bool :=
  Memory.rising 0 m && m.all fun c => Memory.valid c.1 && c.2 ≠ Memory.unlisted c.1

/-! ### Registers (R21 to R27, R32) -/

/-- `V[x]` (R10). -/
def State.reg (s : State) (x : Reg) : Byte := s.v[x]

/-- `V[x] <- b` (R10). -/
def State.setReg (s : State) (x : Reg) (b : Byte) : State := { s with v := s.v.set x b }

/-- Write a result to `V[x]` and a flag to `VF`, in that order: the flag remains when `x` is `F`
(R24, R130; log entry 11). -/
def State.setRegFlag (s : State) (x : Reg) (r f : Byte) : State := (s.setReg x r).setReg VF f

/-- `V[0..x]` loaded at once from the bytes `f 0 .. f x` (R156). -/
def State.setRegsUpTo (s : State) (x : Reg) (f : Nat → Byte) : State :=
  { s with v := Vector.ofFn fun r : Reg => if r ≤ x then f r.val else s.reg r }

/-- `I <- w`. -/
def State.setI (s : State) (w : Word) : State := { s with i := w }

/-- `pc <- w`. -/
def State.setPc (s : State) (w : Word) : State := { s with pc := w }

/-- `DT <- b`. -/
def State.setDt (s : State) (b : Byte) : State := { s with dt := b }

/-- `ST <- b`. -/
def State.setSt (s : State) (b : Byte) : State := { s with st := b }

/-- Memory replaced. -/
def State.setMem (s : State) (m : Memory) : State := { s with mem := m }

/-- The display buffer replaced, and `DRAW_PENDING` set (R175; log entry 13). -/
def State.setDisplay (s : State) (d : Display) : State := { s with fb := d, drawPending := true }

/-- The random byte of this step consumed (R123; log entry 2). -/
def State.drawRnd (s : State) : State := { s with rndDraws := s.rndDraws + 1 }

/-- The random byte of this step, the input `rnd` (R7, R123; log entry 2). -/
def State.rnd (s : State) : Byte := Config.rnd s.rndDraws

/-- The environment's coming events replaced (R6; log entry 1). -/
def State.setSchedule (s : State) (es : List Event) : State := { s with schedule := es }

/-- `pc <- pc + 2`, on 16 bits with no 12-bit mask (R27; log entry 14). -/
def State.advancePc (s : State) : State := s.setPc (s.pc + 2)

/-- `pc <- pc - 2`: back to the executing instruction's own address (R183). -/
def State.retreatPc (s : State) : State := s.setPc (s.pc - 2)

/-- A skip: a further 2 is added to `pc` when the condition holds (R110). -/
def State.skipIf (s : State) (c : Bool) : State := if c then s.advancePc else s

/-! ### The call stack (R29 to R31) -/

/-- Push a return address; nothing when the stack is full (R30). -/
def State.push (s : State) (w : Word) : Option State :=
  if h : s.sp.val < Config.stackDepth then
    some { s with stack := s.stack.set s.sp.val w h, sp := ⟨s.sp.val + 1, Nat.succ_lt_succ h⟩ }
  else none

/-- Pop a return address; nothing when the stack is empty (R31). The entry keeps its bits. -/
def State.pop (s : State) : Option (Word × State) :=
  match s.sp with
  | ⟨0, _⟩ => none
  | ⟨k + 1, h⟩ => some (s.stack[k]'(Nat.lt_of_succ_lt_succ h), { s with sp := ⟨k, Nat.lt_of_succ_lt h⟩ })

/-! ### Fault entry (spec/60_exceptions.md R201, R205, R206) -/

/-- The code that `FAULT_CAUSE` gets (R201). -/
def Fault.code : Fault → BitVec 3
  | .decodeError => 1
  | .stackOverflow => 2
  | .stackUnderflow => 3
  | .outOfBounds => 4
  | .romTooLarge => 5
  | .keyIndexRange => 6

/-- Fault entry: `HALTED <- 1`, `FAULT_CAUSE <-` the code, and nothing else (R205). There is no return
from a fault: only the `reset` event leaves the halted state (R212; `resetEvent` in Events.lean). -/
def raise (f : Fault) (s : State) : State := { s with halted := true, faultCause := f.code }

/-- `raise <Fault>`: the event ends with the fault taken, a next state (R205, R206; log entry 3). -/
def takeFault (f : Fault) (s : State) : Result := .next (raise f s)

/-! ### Instruction fetch (R55) -/

/-- `MemRead(PC, 2)`: the big-endian word at `PC` and `PC + 1`, whatever the parity of `PC`; nothing
when `PC + 1 > 0xFFF` (R55, R59). -/
def State.fetch (s : State) : Option Word :=
  if Memory.valid (s.pc.toNat + 1) then
    some (wordOfBytes (s.mem.read s.pc.toNat) (s.mem.read (s.pc.toNat + 1)))
  else none

/-! ### The display buffer (spec/45_display.md R170) -/

/-- The display row that pixel `idx` stands in, `y` of `idx = y*64 + x` (R33). -/
def rowOf (idx : Nat) : Fin Config.rows := Fin.ofNat Config.rows (idx / Config.columns)

/-- The display column that pixel `idx` stands in, `x` of `idx = y*64 + x` (R33). -/
def columnOf (idx : Nat) : Nat := idx % Config.columns

/-- `FB[idx]`, `idx = y*64 + x` in 0..2047 (R33). -/
def Display.pixel (d : Display) (idx : Nat) : Bool := d[rowOf idx].getLsbD (columnOf idx)

/-- `FB[idx] <- FB[idx] ^ 1` (R172). -/
def Display.flip (d : Display) (idx : Nat) : Display :=
  d.set (rowOf idx) (d[rowOf idx] ^^^ BitVec.twoPow Config.columns (columnOf idx))

/-- All pixels off (R171). -/
def Display.clear : Display := Vector.replicate Config.rows 0

end Sys2Proof.Machine
end

