-- ==== Sys2Proof/Machine/Operands.lean ====
section
/-! DEFINITION. The operand forms (spec/30_encoding.md R83): a register `V[x]` (`State.reg`), an
immediate zero-extended where it is widened, the implicit `V[0]` of `Bnnn`, and the one data
addressing mode, `I + k` (spec/44_index_and_memory.md R150). No immediate is sign-extended or scaled. -/

namespace Sys2Proof.Machine

/-- `zext_16(nnn)` (R9, R83). -/
def zext16 (nnn : Addr12) : Word := nnn.zeroExtend 16

/-- A byte widened to a word (R9). -/
def byteToWord (b : Byte) : Word := b.zeroExtend 16

/-- The low 12 bits of a word: `& 0xFFF` (R104, R152). -/
def mask12 (w : Word) : Word := w &&& 0x0FFF

/-- The target of `Bnnn`: `(nnn + V[0]) & 0xFFF` (R104). -/
def offsetTarget (s : State) (nnn : Addr12) : Word := mask12 (zext16 nnn + byteToWord (s.reg 0))

/-- The effective address `I + k`, an unbounded integer, never wrapped (R52, R150). -/
def effAddr (s : State) (k : Nat) : Nat := s.i.toNat + k

/-- The row count of `Dxyn`, 0..15 (R83). -/
def rowCount (n : Nibble) : Nat := n.toNat

/-- The key number in `V[x]`, 0..255: the register's value, not the field `x` (R181). -/
def keyNumber (s : State) (x : Reg) : Nat := (s.reg x).toNat

end Sys2Proof.Machine
end

