-- ==== Sys2Proof/Machine/Alu.lean ====
section
/-! DEFINITION. Register-to-register ALU operations, class 8 (spec/43_alu.md). Results and flags are
computed from the start-of-instruction values; the flag write has priority when `x` is `F` (R130). -/

namespace Sys2Proof.Machine

/-- `8xy0`: `V[x] <- V[y]` (R131). -/
def execLdReg (x y : Reg) (s : State) : Result := .next (s.setReg x (s.reg y))

/-- `8xy1`: `V[x] <- V[x] | V[y]`, `VF` not cleared (R132). -/
def execOrReg (x y : Reg) (s : State) : Result := .next (s.setReg x (s.reg x ||| s.reg y))

/-- `8xy2`: `V[x] <- V[x] & V[y]`, `VF` not cleared (R133). -/
def execAndReg (x y : Reg) (s : State) : Result := .next (s.setReg x (s.reg x &&& s.reg y))

/-- `8xy3`: `V[x] <- V[x] ^ V[y]`, `VF` not cleared (R134). -/
def execXorReg (x y : Reg) (s : State) : Result := .next (s.setReg x (s.reg x ^^^ s.reg y))

/-- `8xy4`: the sum mod 256, and the carry in `VF` (R135). -/
def execAddReg (x y : Reg) (s : State) : Result :=
  .next (s.setRegFlag x (addByte (s.reg x) (s.reg y)) (flagByte (carry (s.reg x) (s.reg y))))

/-- `8xy5`: `V[x] - V[y]` mod 256, and in `VF` whether `V[x]` was strictly greater (R136). -/
def execSubReg (x y : Reg) (s : State) : Result :=
  .next (s.setRegFlag x (subByte (s.reg x) (s.reg y))
    (flagByte (strictlyGreater (s.reg x) (s.reg y))))

/-- `8xy6`: `V[x] >> 1`, and the bit shifted out in `VF`; `y` is ignored (R91, R137). -/
def execShr (x _y : Reg) (s : State) : Result :=
  .next (s.setRegFlag x (shiftRight1 (s.reg x)) (flagByte (lowBit (s.reg x))))

/-- `8xy7`: `V[y] - V[x]` mod 256, and in `VF` whether `V[y]` was strictly greater (R138). -/
def execSubnReg (x y : Reg) (s : State) : Result :=
  .next (s.setRegFlag x (subByte (s.reg y) (s.reg x))
    (flagByte (strictlyGreater (s.reg y) (s.reg x))))

/-- `8xyE`: `V[x] << 1` mod 256, and the bit shifted out in `VF`; `y` is ignored (R91, R139). -/
def execShl (x _y : Reg) (s : State) : Result :=
  .next (s.setRegFlag x (shiftLeft1 (s.reg x)) (flagByte (topBit (s.reg x))))

end Sys2Proof.Machine
end

