-- ==== Sys2Proof/Machine/ControlFlow.lean ====
section
/-! DEFINITION. Control transfer (spec/40_control_flow.md): RET, JP, CALL, JP V0. In every meaning the
state's `pc` already holds the address of the next instruction (R84). -/

namespace Sys2Proof.Machine

/-- `00EE`: pop the return address into `pc`; `StackUnderflow` on an empty stack (R101). -/
def execRet (s : State) : Result :=
  match s.pop with
  | some (w, s') => .next (s'.setPc w)
  | none => takeFault .stackUnderflow s

/-- `1nnn`: `pc <- nnn` (R102). -/
def execJp (nnn : Addr12) (s : State) : Result := .next (s.setPc (zext16 nnn))

/-- `2nnn`: push the address after the CALL, then `pc <- nnn`; `StackOverflow` on a full stack
(R103). -/
def execCall (nnn : Addr12) (s : State) : Result :=
  match s.push s.pc with
  | some s' => .next (s'.setPc (zext16 nnn))
  | none => takeFault .stackOverflow s

/-- `Bnnn`: `pc <- (nnn + V[0]) & 0xFFF` (R104). -/
def execJpV0 (nnn : Addr12) (s : State) : Result := .next (s.setPc (offsetTarget s nnn))

end Sys2Proof.Machine
end

