-- ==== Sys2Proof/Machine/Display.lean ====
section
/-! DEFINITION. Display instructions and the sprite blitter (spec/45_display.md): CLS, DRW. -/

namespace Sys2Proof.Machine

/-- The pixel that column `c` of sprite row `r` falls on, each coordinate wrapped on its own:
`((y0 + r) mod 32) * 64 + (x0 + c) mod 64` (R172). -/
def pixelIndex (x0 y0 r c : Nat) : Nat :=
  (y0 + r) % Config.rows * Config.columns + (x0 + c) % Config.columns

/-- Column `c` of a sprite row is bit `7 - c`: the most significant bit is drawn first (R174; log
entry 12). -/
def spriteBit (row : Byte) (c : Nat) : Bool := row.getLsbD (7 - c)

/-- One sprite bit of 1 on pixel `idx`: note a collision if the pixel is on, then flip it (R172). -/
def plot (idx : Nat) (p : Display × Bool) : Display × Bool :=
  (p.1.flip idx, p.2 || p.1.pixel idx)

/-- The columns `c, c+1, ...` (`k` of them) of sprite row `r` (R172). -/
def blitColumns (x0 y0 r : Nat) (row : Byte) (c k : Nat) (p : Display × Bool) : Display × Bool :=
  match k with
  | 0 => p
  | k + 1 =>
    blitColumns x0 y0 r row (c + 1) k
      (if spriteBit row c then plot (pixelIndex x0 y0 r c) p else p)

/-- The sprite rows from row `r` on (R172). -/
def blitRows (x0 y0 r : Nat) (rows : List Byte) (p : Display × Bool) : Display × Bool :=
  match rows with
  | [] => p
  | row :: rest => blitRows x0 y0 (r + 1) rest (blitColumns x0 y0 r row 0 8 p)

/-- `blit(x0, y0, rows)`: the display after compositing, and whether any pixel went from 1 to 0
(R172). -/
def blit (x0 y0 : Nat) (rows : List Byte) (d : Display) : Display × Bool :=
  blitRows x0 y0 0 rows (d, false)

/-- Every byte of an `n`-row sprite at `I` lies in memory; a sprite of no rows reads nothing (R173). -/
def spriteInBounds (s : State) (n : Nat) : Bool := n = 0 || Memory.valid (effAddr s (n - 1))

/-- The sprite that `Dxyn` reads: `n` bytes at `I` (R173). -/
def spriteRows (s : State) (n : Nat) : List Byte := s.mem.readBytes (effAddr s 0) n

/-- `00E0`: all pixels off and `DRAW_PENDING` set (R171). -/
def execCls (s : State) : Result := .next (s.setDisplay Display.clear)

/-- `Dxyn`: XOR the sprite at `I` onto the display at (`V[x]`, `V[y]`), the collision in `VF`,
`DRAW_PENDING` set; `OutOfBounds` if the last row is past memory (R173). The coordinates are the
values before `VF` is written (R23). -/
def execDrw (x y : Reg) (n : Nibble) (s : State) : Result :=
  if spriteInBounds s (rowCount n) then
    let drawn := blit (s.reg x).toNat (s.reg y).toNat (spriteRows s (rowCount n)) s.fb
    .next ((s.setDisplay drawn.1).setReg VF (flagByte drawn.2))
  else takeFault .outOfBounds s

end Sys2Proof.Machine
end

