-- ==== Sys2Proof/Machine/Immediate.lean ====
section
/-! DEFINITION. Immediate load, immediate add, random (spec/42_immediate_and_random.md). None writes
`VF` as a side effect (R120). -/

namespace Sys2Proof.Machine

/-- `6xnn`: `V[x] <- nn` (R121). -/
def execLdImm (x : Reg) (nn : Byte) (s : State) : Result := .next (s.setReg x nn)

/-- `7xnn`: `V[x] <- (V[x] + nn) mod 256`, no carry report (R122). -/
def execAddImm (x : Reg) (nn : Byte) (s : State) : Result :=
  .next (s.setReg x (addByte (s.reg x) nn))

/-- `Cxnn`: `V[x] <- rnd & nn`, and this step's random byte is consumed (R123, R124). -/
def execRnd (x : Reg) (nn : Byte) (s : State) : Result := .next (s.drawRnd.setReg x (s.rnd &&& nn))

end Sys2Proof.Machine
end

