-- ==== Sys2Proof/Machine/IndexMemory.lean ====
section
/-! DEFINITION. Index register and memory instructions (spec/44_index_and_memory.md). A multi-byte
instruction checks its highest address first and writes nothing if it faults (R150, R206); none of
them changes `I` as part of an access (R150). -/

namespace Sys2Proof.Machine

/-- `Annn`: `I <- nnn` (R151). -/
def execLdI (nnn : Addr12) (s : State) : Result := .next (s.setI (zext16 nnn))

/-- `Fx1E`: `I <- (I + V[x]) & 0xFFF`, `VF` untouched (R152). -/
def execAddI (x : Reg) (s : State) : Result := .next (s.setI (mask12 (s.i + byteToWord (s.reg x))))

/-- `Fx29`: `I <- V[x] * 5`, the whole byte multiplied (R153). -/
def execLdF (x : Reg) (s : State) : Result := .next (s.setI (byteToWord (s.reg x) * 5))

/-- `Fx33`: the three decimal digits of `V[x]` at `I`, `I+1`, `I+2` (R154). -/
def execLdB (x : Reg) (s : State) : Result :=
  if Memory.valid (effAddr s 2) then
    .next (s.setMem (s.mem.writeBytes (effAddr s 0) (bcdDigits (s.reg x))))
  else takeFault .outOfBounds s

/-- The bytes of `V[0], ..., V[x]`, in register order (R155). -/
def regsUpTo (s : State) (x : Reg) : List Byte := s.v.toList.take (x.val + 1)

/-- `Fx55`: `V[0..x]` to the bytes `I..I+x` (R155). -/
def execDump (x : Reg) (s : State) : Result :=
  if Memory.valid (effAddr s x.val) then
    .next (s.setMem (s.mem.writeBytes (effAddr s 0) (regsUpTo s x)))
  else takeFault .outOfBounds s

/-- `Fx65`: the bytes `I..I+x` to `V[0..x]` (R156). -/
def execLoad (x : Reg) (s : State) : Result :=
  if Memory.valid (effAddr s x.val) then
    .next (s.setRegsUpTo x fun k => s.mem.read (effAddr s k))
  else takeFault .outOfBounds s

end Sys2Proof.Machine
end

