-- ==== Sys2Proof/Machine/Keypad.lean ====
section
/-! DEFINITION. Keypad instructions (spec/46_keypad.md): SKP, SKNP, LD Vx,K. -/

namespace Sys2Proof.Machine

/-- `KEYS[k] == 1`: key `k` is down (R34). -/
def keyDown (keys : BitVec 16) (k : Nat) : Bool := keys.getLsbD k

/-- The first key that is down among the `n` keys from `k` on. -/
def firstKeyDown (keys : BitVec 16) (k n : Nat) : Option Nat :=
  match n with
  | 0 => none
  | n + 1 => if keyDown keys k then some k else firstKeyDown keys (k + 1) n

/-- The least key number that is down, scanning the 16 keys from key 0 (R183, R185; log entry 10). -/
def lowestKeyDown (keys : BitVec 16) : Option Nat := firstKeyDown keys 0 16

/-- `Ex9E`: skip if the key numbered by `V[x]` is down; `KeyIndexRange` above 15 (R181, R184). -/
def execSkp (x : Reg) (s : State) : Result :=
  if keyNumber s x > 15 then takeFault .keyIndexRange s
  else .next (s.skipIf (keyDown s.keys (keyNumber s x)))

/-- `ExA1`: skip if the key numbered by `V[x]` is up; `KeyIndexRange` above 15 (R182, R184). -/
def execSknp (x : Reg) (s : State) : Result :=
  if keyNumber s x > 15 then takeFault .keyIndexRange s
  else .next (s.skipIf (!keyDown s.keys (keyNumber s x)))

/-- `Fx0A`: with no key down, go back to this instruction's own address; else the least key down goes
to `V[x]` (R183). -/
def execLdVxK (x : Reg) (s : State) : Result :=
  match lowestKeyDown s.keys with
  | none => .next s.retreatPc
  | some k => .next (s.setReg x (BitVec.ofNat 8 k))

end Sys2Proof.Machine
end

