-- ==== Sys2Proof/Machine/Skips.lean ====
section
/-! DEFINITION. Conditional skips on registers (spec/41_skips.md): SE, SNE. -/

namespace Sys2Proof.Machine

/-- `3xnn`: skip if `V[x] == nn` (R111). -/
def execSeImm (x : Reg) (nn : Byte) (s : State) : Result := .next (s.skipIf (s.reg x == nn))

/-- `4xnn`: skip if `V[x] != nn` (R112). -/
def execSneImm (x : Reg) (nn : Byte) (s : State) : Result := .next (s.skipIf (s.reg x != nn))

/-- `5xy0`: skip if `V[x] == V[y]` (R113). -/
def execSeReg (x y : Reg) (s : State) : Result := .next (s.skipIf (s.reg x == s.reg y))

/-- `9xy0`: skip if `V[x] != V[y]` (R114). -/
def execSneReg (x y : Reg) (s : State) : Result := .next (s.skipIf (s.reg x != s.reg y))

end Sys2Proof.Machine
end

