-- ==== Sys2Proof/Machine/Timers.lean ====
section
/-! DEFINITION. Timer instructions (spec/47_timers.md): one whole byte between `V[x]` and a timer (R190). -/

namespace Sys2Proof.Machine

/-- `Fx07`: `V[x] <- DT` (R191). -/
def execLdVxDt (x : Reg) (s : State) : Result := .next (s.setReg x s.dt)

/-- `Fx15`: `DT <- V[x]` (R192). -/
def execLdDtVx (x : Reg) (s : State) : Result := .next (s.setDt (s.reg x))

/-- `Fx18`: `ST <- V[x]` (R193). -/
def execLdStVx (x : Reg) (s : State) : Result := .next (s.setSt (s.reg x))

end Sys2Proof.Machine
end

