-- ==== Sys2Proof/Machine/Events.lean ====
section
/-! DEFINITION. The environment's events other than `step` (spec/00_scope.md R6): the timer tick, the
keypad, the renderer's acknowledgement, program load and reset. -/

namespace Sys2Proof.Machine

/-- One timer, decremented toward zero and clamped there (R32, R220). -/
def countDown (b : Byte) : Byte := if b.toNat > 0 then b - 1 else b

/-- `tick`: both timers count down; nothing else changes, halted or not (R220, R222). -/
def tick (s : State) : State := (s.setDt (countDown s.dt)).setSt (countDown s.st)

/-- `set_keys(k)`: all 16 key bits are overwritten, halted or not (R180). -/
def setKeys (keys : BitVec 16) (s : State) : State := { s with keys := keys }

/-- `draw_ack`: `DRAW_PENDING <- 0`, halted or not (R176). -/
def drawAck (s : State) : State := { s with drawPending := false }

/-- `load(bytes)`: ignored while halted; `RomTooLarge` with memory unchanged when the image would pass
the end of memory; else the image stands at 0x200 (R209, R243; log entry 18). -/
def loadImage (bytes : List Byte) (s : State) : State :=
  if s.halted then s
  else if Config.progBase + bytes.length > Config.memSize then raise .romTooLarge s
  else s.setMem (s.mem.writeBytes Config.progBase bytes)

/-- `reset`: every piece of state gets its reset value, in any state (R240); it is the only way out of
the halted state (R212). The model's own fields go on: the environment's coming events and the count
of consumed random bytes are no state of the core (log entries 1, 2). -/
def resetEvent (s : State) : State :=
  { State.reset with rndDraws := s.rndDraws, schedule := s.schedule }

end Sys2Proof.Machine
end

