-- ==== Sys2Proof/Machine/Cycle.lean ====
section
/-! DEFINITION. The instruction cycle (spec/30_encoding.md R84) and the effect of each event
(spec/00_scope.md R6). -/

namespace Sys2Proof.Machine

/-- The `step` event: nothing in the halted state; else fetch, advance `pc`, decode, execute. A fetch
fault comes before the advance, a decode fault after it (R84, R206, R210). -/
def cycle (s : State) : Result :=
  if s.halted then .next s
  else
    match s.fetch with
    | none => takeFault .outOfBounds s
    | some w =>
      match decodeWord w with
      | .error _ => takeFault .decodeError s.advancePc
      | .ok i => exec i s.advancePc

/-- The effect of one event (R6). -/
def applyEvent (e : Event) (s : State) : Result :=
  match e with
  | .step => cycle s
  | .tick => .next (tick s)
  | .setKeys keys => .next (setKeys keys s)
  | .drawAck => .next (drawAck s)
  | .load bytes => .next (loadImage bytes s)
  | .reset => .next (resetEvent s)

/-- The next event of the environment: the head of the schedule, and when none is listed, `step`
(log entry 1). -/
def nextEvent (s : State) : Result :=
  match s.schedule with
  | [] => cycle s
  | e :: es => applyEvent e (s.setSchedule es)

/-- A state in which the very next step is an instruction cycle with a readable fetch address: no event
waits, the core is not halted, and `pc` is left alone unless no word can be fetched there. -/
def readyToFetch (s : State) : State :=
  let s := s.setSchedule []
  let s := if s.halted then { s with halted := false, faultCause := 0 } else s
  if Memory.valid (s.pc.toNat + 1) then s else s.setPc (BitVec.ofNat 16 Config.progBase)

/-- `s` with the two bytes of `w` stored big-endian where the next fetch reads (R55). -/
def placeWord (s : State) (w : Word) : State :=
  s.setMem (s.mem.writeBytes s.pc.toNat [hiByte w, loByte w])

end Sys2Proof.Machine
end

