-- ==== Sys2Proof/Machine/Step.lean ====
section
/-! DEFINITION. One step of the machine: the environment's next event (spec/00_scope.md R6), which is an
instruction cycle (spec/30_encoding.md R84) unless another event is scheduled. -/

namespace Sys2Proof.Machine

/-- One step: the next event of the environment (log entry 1). -/
def step (s : State) : Host.Outcome State Fault Refusal := nextEvent s

/-- `s` with the instruction of an opcode-table word placed where `step` fetches its next instruction
(log entry 20). -/
def State.withFetchWord (s : State) (nbits w : Nat) : State :=
  placeWord (readyToFetch s) (tableWord nbits w)

end Sys2Proof.Machine
end

