-- ==== Sys2Proof/WellFormed.lean ====
section
/-! DEFINITION. What is well formed: an instruction WORD is legal when the opcode map of
spec/30_encoding.md R88 has a row for it (R87, R90), and a program IMAGE is well formed when it fits
in memory (spec/70_reset_and_hazards.md R243). A term of `Instr` needs no check of its own: its
operand types hold exactly the values of their fields, and R83 admits all of them. The opcode map
stands here as data, so that the decoder (Decode.lean, written from R85 and R86) can be held against
it. -/

namespace Sys2Proof

/-- One row of the opcode map: its mask and the value the masked bits must have (R88). -/
structure OpRow where
  mask : Word
  value : Word
  deriving DecidableEq, Repr

/-- "a word `w` selects the row if and only if `w & mask == match`" (R88). -/
def OpRow.selects (r : OpRow) (w : Word) : Bool := w &&& r.mask = r.value

/-- The row of R88 that an instruction belongs to. -/
def Instr.opRow : Instr → OpRow
  | .cls => ⟨0xFFFF, 0x00E0⟩
  | .ret => ⟨0xFFFF, 0x00EE⟩
  | .jp _ => ⟨0xF000, 0x1000⟩
  | .call _ => ⟨0xF000, 0x2000⟩
  | .seImm _ _ => ⟨0xF000, 0x3000⟩
  | .sneImm _ _ => ⟨0xF000, 0x4000⟩
  | .seReg _ _ => ⟨0xF00F, 0x5000⟩
  | .ldImm _ _ => ⟨0xF000, 0x6000⟩
  | .addImm _ _ => ⟨0xF000, 0x7000⟩
  | .ldReg _ _ => ⟨0xF00F, 0x8000⟩
  | .orReg _ _ => ⟨0xF00F, 0x8001⟩
  | .andReg _ _ => ⟨0xF00F, 0x8002⟩
  | .xorReg _ _ => ⟨0xF00F, 0x8003⟩
  | .addReg _ _ => ⟨0xF00F, 0x8004⟩
  | .subReg _ _ => ⟨0xF00F, 0x8005⟩
  | .shr _ _ => ⟨0xF00F, 0x8006⟩
  | .subnReg _ _ => ⟨0xF00F, 0x8007⟩
  | .shl _ _ => ⟨0xF00F, 0x800E⟩
  | .sneReg _ _ => ⟨0xF00F, 0x9000⟩
  | .ldI _ => ⟨0xF000, 0xA000⟩
  | .jpV0 _ => ⟨0xF000, 0xB000⟩
  | .rnd _ _ => ⟨0xF000, 0xC000⟩
  | .drw _ _ _ => ⟨0xF000, 0xD000⟩
  | .skp _ => ⟨0xF0FF, 0xE09E⟩
  | .sknp _ => ⟨0xF0FF, 0xE0A1⟩
  | .ldVxDt _ => ⟨0xF0FF, 0xF007⟩
  | .ldVxK _ => ⟨0xF0FF, 0xF00A⟩
  | .ldDtVx _ => ⟨0xF0FF, 0xF015⟩
  | .ldStVx _ => ⟨0xF0FF, 0xF018⟩
  | .addI _ => ⟨0xF0FF, 0xF01E⟩
  | .ldF _ => ⟨0xF0FF, 0xF029⟩
  | .ldB _ => ⟨0xF0FF, 0xF033⟩
  | .dump _ => ⟨0xF0FF, 0xF055⟩
  | .load _ => ⟨0xF0FF, 0xF065⟩

/-- The opcode map: the 34 rows of R88, in its order (the operands are immaterial to the row). -/
def opcodeMap : List OpRow :=
  ([.cls, .ret, .jp 0, .call 0, .seImm 0 0, .sneImm 0 0, .seReg 0 0, .ldImm 0 0, .addImm 0 0,
    .ldReg 0 0, .orReg 0 0, .andReg 0 0, .xorReg 0 0, .addReg 0 0, .subReg 0 0, .shr 0 0,
    .subnReg 0 0, .shl 0 0, .sneReg 0 0, .ldI 0, .jpV0 0, .rnd 0 0, .drw 0 0 0, .skp 0, .sknp 0,
    .ldVxDt 0, .ldVxK 0, .ldDtVx 0, .ldStVx 0, .addI 0, .ldF 0, .ldB 0, .dump 0, .load 0] :
      List Instr).map Instr.opRow

/-- A legal instruction word: some row selects it (R87, R90). -/
def legalWord (w : Word) : Bool := opcodeMap.any (·.selects w)

/-- A program image that fits between 0x200 and the end of memory (R243). -/
def imageFits (bytes : List Byte) : Bool := bytes.length ≤ Config.maxProg

end Sys2Proof
end

