-- ==== Sys2Proof/Safety.lean ====
section
/-! DEFINITION. The terms the claims use: what it means for a part of the state to be unchanged, the
frame of a step, the invariant of the machine, which registers an instruction may write, and the
sprite pixels in closed form. -/

namespace Sys2Proof.Machine

/-- The parts of the state that a frame speaks of: the rows of spec/10_state.md R20 and the model's own
two fields. -/
inductive Part where
  | v | i | pc | stack | dt | st | mem | fb | keys | drawPending | fault | draws | schedule
  deriving DecidableEq, Repr

/-- A part is the same in two states. Memory is compared byte by byte, through the read of one byte. -/
def Part.same (p : Part) (s t : State) : Prop :=
  match p with
  | .v => ∀ r : Reg, t.reg r = s.reg r
  | .i => t.i = s.i
  | .pc => t.pc = s.pc
  | .stack => t.sp = s.sp ∧ ∀ k : Fin Config.stackDepth, t.stack[k] = s.stack[k]
  | .dt => t.dt = s.dt
  | .st => t.st = s.st
  | .mem => ∀ a : Nat, t.mem.read a = s.mem.read a
  | .fb => ∀ idx : Nat, idx < 2048 → t.fb.pixel idx = s.fb.pixel idx
  | .keys => t.keys = s.keys
  | .drawPending => t.drawPending = s.drawPending
  | .fault => t.halted = s.halted ∧ t.faultCause = s.faultCause
  | .draws => t.rndDraws = s.rndDraws
  | .schedule => t.schedule = s.schedule

/-- THE FRAME: every part of the state but those named is the same. -/
def Frame (changed : List Part) (s t : State) : Prop := ∀ p : Part, p ∉ changed → p.same s t

/-- Two states hold the same in every part but those named. -/
def AgreeExcept (ignored : List Part) (s t : State) : Prop := Frame ignored s t

/-- A state in which the core runs: no fatal error has been taken (R36). -/
def Running (s : State) : Prop := s.halted = false

/-- The next event of the environment is `step`: it is scheduled, or nothing is (R6; log entry 1). -/
def StepIsNext (s : State) : Prop := s.schedule.head? = none ∨ s.schedule.head? = some .step

/-- `s` after the environment's next event has been taken off its schedule. -/
def taken (s : State) : State := s.setSchedule s.schedule.tail

/-- THE INVARIANT of the machine. -/
structure Invariant (s : State) : Prop where
  /-- Memory is in its canonical form. -/
  memory : Memory.wf s.mem = true
  /-- `I <= 0x0FFF` (R25). -/
  index : s.i.toNat ≤ 0x0FFF
  /-- "The largest value `PC` can reach is `0x1002`" (R28). -/
  pc : s.pc.toNat ≤ 0x1002
  /-- A live stack entry is the address after a CALL, at most `0x1000` (R28, R101). -/
  stack : ∀ k : Fin Config.stackDepth, k.val < s.sp.val → s.stack[k].toNat ≤ 0x1000
  /-- The core is halted exactly when a fault cause is recorded (R36). -/
  cause : s.halted = true ↔ s.faultCause ≠ 0
  /-- `FAULT_CAUSE` holds a code that R201 lists. -/
  code : s.faultCause.toNat ≤ 6

/-- The registers an instruction may write when it completes: its destination, and `VF` for the
instructions of the table of R22. -/
def writesReg (i : Instr) (r : Reg) : Prop :=
  match i with
  | .ldImm x _ | .addImm x _ | .ldReg x _ | .orReg x _ | .andReg x _ | .xorReg x _ | .rnd x _
  | .ldVxDt x | .ldVxK x => r = x
  | .addReg x _ | .subReg x _ | .shr x _ | .subnReg x _ | .shl x _ => r = x ∨ r = VF
  | .drw _ _ _ => r = VF
  | .load x => r ≤ x
  | .cls | .ret | .jp _ | .call _ | .seImm _ _ | .sneImm _ _ | .seReg _ _ | .sneReg _ _ | .ldI _
  | .jpV0 _ | .skp _ | .sknp _ | .ldDtVx _ | .ldStVx _ | .addI _ | .ldF _ | .ldB _ | .dump _ => False

/-- The instructions that leave `pc` at the address of the next instruction: all but the jumps, the
call, the return, the skips and `Fx0A` (R27). -/
def straightLine (i : Instr) : Prop :=
  match i with
  | .ret | .jp _ | .call _ | .jpV0 _ | .seImm _ _ | .sneImm _ _ | .seReg _ _ | .sneReg _ _ | .skp _
  | .sknp _ | .ldVxK _ => False
  | .cls | .ldImm _ _ | .addImm _ _ | .ldReg _ _ | .orReg _ _ | .andReg _ _ | .xorReg _ _
  | .addReg _ _ | .subReg _ _ | .shr _ _ | .subnReg _ _ | .shl _ _ | .ldI _ | .rnd _ _ | .drw _ _ _
  | .ldVxDt _ | .ldDtVx _ | .ldStVx _ | .addI _ | .ldF _ | .ldB _ | .dump _ | .load _ => True

/-- The instructions that leave a flag in `VF` as a side effect (R22). -/
def writesFlag (i : Instr) : Prop :=
  match i with
  | .addReg _ _ | .subReg _ _ | .shr _ _ | .subnReg _ _ | .shl _ _ | .drw _ _ _ => True
  | .cls | .ret | .jp _ | .call _ | .seImm _ _ | .sneImm _ _ | .seReg _ _ | .ldImm _ _ | .addImm _ _
  | .ldReg _ _ | .orReg _ _ | .andReg _ _ | .xorReg _ _ | .sneReg _ _ | .ldI _ | .jpV0 _ | .rnd _ _
  | .skp _ | .sknp _ | .ldVxDt _ | .ldVxK _ | .ldDtVx _ | .ldStVx _ | .addI _ | .ldF _ | .ldB _
  | .dump _ | .load _ => False

/-- The execute-phase fault of an instruction in a state, by its code: the table of R201 with the
conditions of R203, R204, R207 and R208. An instruction not named there never faults. -/
def tableFault (i : Instr) (s : State) : Option Nat :=
  match i with
  | .call _ => if s.sp.val = 16 then some 2 else none
  | .ret => if s.sp.val = 0 then some 3 else none
  | .ldB _ => if s.i.toNat + 2 > 0xFFF then some 4 else none
  | .dump x | .load x => if s.i.toNat + x.val > 0xFFF then some 4 else none
  | .drw _ _ n => if n.toNat ≥ 1 ∧ s.i.toNat + n.toNat - 1 > 0xFFF then some 4 else none
  | .skp x | .sknp x => if (s.reg x).toNat > 15 then some 6 else none
  | .cls | .jp _ | .seImm _ _ | .sneImm _ _ | .seReg _ _ | .ldImm _ _ | .addImm _ _ | .ldReg _ _
  | .orReg _ _ | .andReg _ _ | .xorReg _ _ | .addReg _ _ | .subReg _ _ | .shr _ _ | .subnReg _ _
  | .shl _ _ | .sneReg _ _ | .ldI _ | .jpV0 _ | .rnd _ _ | .ldVxDt _ | .ldVxK _ | .ldDtVx _
  | .ldStVx _ | .addI _ | .ldF _ => none

/-- A fault has been taken: the core is halted, `FAULT_CAUSE` holds the code, and nothing else of the
state has changed but the parts named (R205, R206). -/
def FaultTaken (code : Nat) (changed : List Part) (s t : State) : Prop :=
  t.halted = true ∧ t.faultCause.toNat = code ∧ Frame (.fault :: changed) s t

/-- The sprite bit that falls on display pixel (`px`, `py`) when a sprite is drawn at (`x0`, `y0`), in
closed form: the pixel lies `c` columns right of and `r` rows below the start, each distance counted
around the edge, and the sprite has a bit there (R172, R174). -/
def covers (x0 y0 : Nat) (rows : List Byte) (px py : Nat) : Bool :=
  let c := (px + 256 - x0) % 64
  let r := (py + 256 - y0) % 32
  decide (c < 8) && (rows.getD r 0).getLsbD (7 - c)

end Sys2Proof.Machine
end

