-- ==== Sys2Proof/Certificates/Slice0/Obligations.lean ====
section
/-! DEFINITION. The statements about the model, for the provers. Each docstring names the rule of spec/
it formalises, and, where the statement rests on a decision of the spec's own or on a choice of the
model, the decision and the log entry. `Frame l s t` says that every part of the state but those in
`l` is the same in `t` as in `s`, memory byte by byte (Safety.lean). -/

open Sys2Proof Sys2Proof.Machine

/-! ### Encoding (spec/30_encoding.md) -/

/-- Every instruction, with every operand at every value, is read back from its word and from its two
bytes, whatever follows them (R80, R82, R88). -/
def Obligations.EncodeThenDecodeReturnsInstruction : Prop :=
  ∀ (i : Instr) (rest : List Byte),
    decodeWord (encode i) = .ok i ∧ decode (encodeBytes i ++ rest) = .ok (i, rest)

/-- Every word that decodes is the word of the instruction it decodes to: no bit of a word is dropped,
the ignored `y` of the shifts included (R81, R88, R91). -/
def Obligations.DecodeThenEncodeReturnsWord : Prop :=
  ∀ (w : Word) (i : Instr), decodeWord w = .ok i → encode i = w

/-- The opcode map has 34 rows, a word decodes to an instruction of a row exactly when the row selects
it by mask and match, and no word is selected by two rows (R88; that every fixed digit must match is the
spec's decision D9, log entry 15). -/
def Obligations.DecoderFollowsOpcodeMap : Prop :=
  opcodeMap.length = 34 ∧
  (∀ (w : Word) (r : OpRow), r ∈ opcodeMap →
    (w &&& r.mask = r.value ↔ ∃ i : Instr, decodeWord w = .ok i ∧ i.opRow = r)) ∧
  (∀ (w : Word) (r r' : OpRow), r ∈ opcodeMap → r' ∈ opcodeMap →
    w &&& r.mask = r.value → w &&& r'.mask = r'.value → r = r')

/-- The words the decoder rejects are exactly those of the table of illegal words (R90; the strictness
is the spec's decision D9, log entry 15). -/
def Obligations.RejectedWordsAreTheIllegalOnes : Prop :=
  ∀ w : Word, (∃ e : Reject, decodeWord w = .error e) ↔
    (w.toNat / 4096 = 0x0 ∧ w.toNat ≠ 0x00E0 ∧ w.toNat ≠ 0x00EE) ∨
    (w.toNat / 4096 = 0x5 ∧ w.toNat % 16 ≠ 0) ∨
    (w.toNat / 4096 = 0x8 ∧ w.toNat % 16 ∈ [0x8, 0x9, 0xA, 0xB, 0xC, 0xD, 0xF]) ∨
    (w.toNat / 4096 = 0x9 ∧ w.toNat % 16 ≠ 0) ∨
    (w.toNat / 4096 = 0xE ∧ w.toNat % 256 ∉ [0x9E, 0xA1]) ∨
    (w.toNat / 4096 = 0xF ∧
      w.toNat % 256 ∉ [0x07, 0x0A, 0x15, 0x18, 0x1E, 0x29, 0x33, 0x55, 0x65])

/-- Words written out from the spec's encodings and examples decode to the instructions they stand for
(R88; spec/95_test_vectors.md). -/
def Obligations.SampleWordsDecodeAsWritten : Prop :=
  decodeWord 0x00EE = .ok .ret ∧ decodeWord 0x1234 = .ok (.jp 0x234) ∧
  decodeWord 0x3A05 = .ok (.seImm 0xA 0x05) ∧ decodeWord 0x7305 = .ok (.addImm 3 0x05) ∧
  decodeWord 0x83A6 = .ok (.shr 3 0xA) ∧ decodeWord 0xA2F0 = .ok (.ldI 0x2F0) ∧
  decodeWord 0xD01F = .ok (.drw 0 1 0xF) ∧ decodeWord 0xE29E = .ok (.skp 2) ∧
  decodeWord 0xF30A = .ok (.ldVxK 3) ∧ decodeWord 0xF265 = .ok (.load 2) ∧
  decodeWord 0x5121 = .error .class5 ∧ decodeWord 0x0000 = .error .class0

/-! ### The instruction cycle, faults and halting (R84, spec/60_exceptions.md) -/

/-- A STEP RUNS THE DECODED INSTRUCTION: when the core runs, the environment's next event is `step`, and
the two bytes at `PC` (big-endian, R55) decode to `i`, the step is `exec i` on the state whose `pc` has
been advanced by 2 and whose schedule has lost that event (R84; the schedule is the model's own, log
entry 1). -/
def Obligations.StepRunsDecodedInstruction : Prop :=
  ∀ (s : State) (i : Instr), StepIsNext s → Running s → s.pc.toNat ≤ 0xFFE →
    decode [s.mem.read s.pc.toNat, s.mem.read (s.pc.toNat + 1)] = .ok (i, []) →
    step s = exec i ((taken s).setPc (s.pc + 2))

/-- A fetch at `PC >= 0xFFF` takes `OutOfBounds`, before `PC` is advanced (R28, R55, R206; no wrap of `PC`
is the spec's decision D8, log entry 14; fault entry is D10, log entry 3; the schedule, which loses the
event taken, is the model's own, log entry 1). -/
def Obligations.FetchPastMemoryTakesOutOfBounds : Prop :=
  ∀ s : State, StepIsNext s → Running s → 0xFFF ≤ s.pc.toNat →
    ∃ t, step s = .next t ∧ FaultTaken 4 [.schedule] s t ∧ t.schedule = s.schedule.tail

/-- A word that decodes to nothing takes `DecodeError`, after `PC` is advanced by 2 (R84, R202, R206; that
words outside the strict patterns fault is the spec's decision D9, log entry 15; fault entry is D10, log
entry 3; the schedule, which loses the event taken, is the model's own, log entry 1). -/
def Obligations.IllegalWordTakesDecodeError : Prop :=
  ∀ (s : State) (e : Reject), StepIsNext s → Running s → s.pc.toNat ≤ 0xFFE →
    decodeWord (s.mem.read s.pc.toNat ++ s.mem.read (s.pc.toNat + 1)) = .error e →
    ∃ t, step s = .next t ∧ FaultTaken 1 [.pc, .schedule] s t ∧
      t.pc.toNat = s.pc.toNat + 2 ∧ t.schedule = s.schedule.tail

/-- A halted core with no other event scheduled stays exactly as it is, for any number of steps (R84,
R205; the halted state is the spec's decision D10, log entry 3; the schedule is the model's own, log entry
1). -/
def Obligations.HaltedCoreNeverMoves : Prop :=
  ∀ (s : State) (k : Nat), s.halted = true → s.schedule = [] →
    Host.Core.run Sys2Proof.core k s = .next s

/-- Only the `reset` event leaves the halted state, and until then no event changes anything but the
timers, the keys and `DRAW_PENDING` (R205, R212, R222, R243; the halted state is the spec's decision D10,
log entry 3; that a tick acts there is D20, log entry 19; that a `load` does nothing there is D22, log
entry 18; the schedule is the model's own, log entry 1). -/
def Obligations.OnlyResetLeavesHaltedState : Prop :=
  ∀ s t : State, s.halted = true → step s = .next t → s.schedule.head? ≠ some .reset →
    t.halted = true ∧ t.faultCause = s.faultCause ∧
      Frame [.dt, .st, .keys, .drawPending, .schedule] s t

/-- Each execute-phase fault happens exactly on its condition of the fault table, with its code, and
precisely: nothing else of the state changes. In every other case the instruction completes with the
fault state as before (R201, R203, R204, R206, R207, R208; fault entry and precision are the spec's
decision D10, log entry 3; the stack capacity 16 is D2, log entry 8; the fault on a key number above 15
is D11, log entry 9; that `Dxy0` is legal and never faults is D16, log entry 13). -/
def Obligations.ExecuteFaultsAreTabledAndPrecise : Prop :=
  ∀ (i : Instr) (s : State), Running s → ∃ t, exec i s = .next t ∧
    (match tableFault i s with
     | none => t.halted = false ∧ t.faultCause = s.faultCause
     | some code => FaultTaken code [] s t)

/-- A step that takes a fault leaves everything else as it was, but `PC` advanced by 2 for every fault
other than a fetch fault (R206, R210; the spec's decision D10, log entry 3; the fetch bound is D8, log
entry 14; the schedule is the model's own, log entry 1). -/
def Obligations.FaultingStepIsPrecise : Prop :=
  ∀ s t : State, StepIsNext s → Running s → step s = .next t → t.halted = true →
    Frame [.fault, .pc, .schedule] s t ∧
      t.pc.toNat = if s.pc.toNat ≥ 0xFFF then s.pc.toNat else s.pc.toNat + 2

/-- Nothing stops the model: every instruction in every state, and every step, answers a next state
(R84, R205: a fatal error is a state of the machine; log entry 3). -/
def Obligations.EveryStepAnswersNext : Prop :=
  (∀ (i : Instr) (s : State), ∃ t, exec i s = .next t) ∧ (∀ s : State, ∃ t, step s = .next t)

/-! ### Control transfer (spec/40_control_flow.md) -/

/-- JP: `pc <- nnn` (R102). -/
def Obligations.JumpSetsPc : Prop :=
  ∀ (nnn : Addr12) (s : State), ∃ t, exec (.jp nnn) s = .next t ∧
    t.pc.toNat = nnn.toNat ∧ Frame [.pc] s t

/-- JP V0: `pc <- (nnn + V[0]) & 0xFFF` (R104). -/
def Obligations.JumpWithOffsetSetsPc : Prop :=
  ∀ (nnn : Addr12) (s : State), ∃ t, exec (.jpV0 nnn) s = .next t ∧
    t.pc.toNat = (nnn.toNat + (s.reg 0).toNat) % 4096 ∧ Frame [.pc] s t

/-- CALL pushes the address of the next instruction and jumps; on a full stack it takes `StackOverflow`
and pushes nothing (R103; the depth 16 is the spec's decision D2, log entry 8, fault entry D10, log
entry 3). -/
def Obligations.CallPushesReturnAddress : Prop :=
  ∀ (nnn : Addr12) (s : State),
    (s.sp.val < 16 → ∃ t, exec (.call nnn) s = .next t ∧ t.sp.val = s.sp.val + 1 ∧
      (∀ k : Fin 16, t.stack[k] = if k.val = s.sp.val then s.pc else s.stack[k]) ∧
      t.pc.toNat = nnn.toNat ∧ Frame [.pc, .stack] s t) ∧
    (s.sp.val = 16 → ∃ t, exec (.call nnn) s = .next t ∧ FaultTaken 2 [] s t)

/-- RET pops the return address into `pc`, all 16 bits; on an empty stack it takes `StackUnderflow` and
pops nothing (R101; fault entry is decision D10, log entry 3). -/
def Obligations.RetPopsReturnAddress : Prop :=
  ∀ s : State,
    (∀ k : Fin 16, s.sp.val = k.val + 1 → ∃ t, exec .ret s = .next t ∧ t.pc = s.stack[k] ∧
      t.sp.val = k.val ∧ (∀ j : Fin 16, t.stack[j] = s.stack[j]) ∧ Frame [.pc, .stack] s t) ∧
    (s.sp.val = 0 → ∃ t, exec .ret s = .next t ∧ FaultTaken 3 [] s t)

/-- A `CALL nnn` at address `a` whose target holds `RET`: two steps later `PC` is `a + 2`, the stack depth
is what it was, and nothing but the dead stack entry has changed (R105; the bound 16 on the depth is
decision D2, log entry 8; the empty schedule is the model's own, log entry 1). -/
def Obligations.CallThenRetReturnsAfterCall : Prop :=
  ∀ (s : State) (nnn : Addr12), Running s → s.schedule = [] → s.pc.toNat ≤ 0xFFE →
    nnn.toNat ≤ 0xFFE → s.sp.val < 16 →
    decode [s.mem.read s.pc.toNat, s.mem.read (s.pc.toNat + 1)] = .ok (.call nnn, []) →
    decode [s.mem.read nnn.toNat, s.mem.read (nnn.toNat + 1)] = .ok (.ret, []) →
    ∃ t u, step s = .next t ∧ t.sp.val = s.sp.val + 1 ∧ step t = .next u ∧
      u.pc.toNat = s.pc.toNat + 2 ∧ u.sp = s.sp ∧
      (∀ k : Fin 16, k.val ≠ s.sp.val → u.stack[k] = s.stack[k]) ∧ Frame [.pc, .stack] s u

/-! ### Skips (spec/41_skips.md) -/

/-- The four register skips add a further 2 to `pc`, on 16 bits, exactly when their condition holds, and
change nothing else (R110, R111, R112, R113, R114; that the addition is on 16 bits is the spec's
decision D8, log entry 14). -/
def Obligations.RegisterSkipsMovePcByTwo : Prop :=
  ∀ (x y : Reg) (nn : Byte) (s : State),
    (∃ t, exec (.seImm x nn) s = .next t ∧ Frame [.pc] s t ∧
      t.pc.toNat = if s.reg x = nn then (s.pc.toNat + 2) % 65536 else s.pc.toNat) ∧
    (∃ t, exec (.sneImm x nn) s = .next t ∧ Frame [.pc] s t ∧
      t.pc.toNat = if s.reg x = nn then s.pc.toNat else (s.pc.toNat + 2) % 65536) ∧
    (∃ t, exec (.seReg x y) s = .next t ∧ Frame [.pc] s t ∧
      t.pc.toNat = if s.reg x = s.reg y then (s.pc.toNat + 2) % 65536 else s.pc.toNat) ∧
    (∃ t, exec (.sneReg x y) s = .next t ∧ Frame [.pc] s t ∧
      t.pc.toNat = if s.reg x = s.reg y then s.pc.toNat else (s.pc.toNat + 2) % 65536)

/-! ### Immediates and random (spec/42_immediate_and_random.md) -/

/-- LD Vx, nn and ADD Vx, nn: the result in `V[x]`, every other register as it was, `VF` too unless it is
the destination, and no carry report (R121, R122). -/
def Obligations.ImmediateLoadAndAdd : Prop :=
  ∀ (x : Reg) (nn : Byte) (s : State),
    (∃ t, exec (.ldImm x nn) s = .next t ∧ Frame [.v] s t ∧
      ∀ r : Reg, t.reg r = if r = x then nn else s.reg r) ∧
    (∃ t, exec (.addImm x nn) s = .next t ∧ Frame [.v] s t ∧
      ∀ r : Reg, (t.reg r).toNat = if r = x then ((s.reg x).toNat + nn.toNat) % 256
        else (s.reg r).toNat)

/-- RND: `V[x]` is the step's random byte AND `nn`, whatever that byte is; no bit outside `nn` is ever set;
one random byte is consumed (R124; that the byte is the free value `Config.rnd` at the state's counter
is the model's choice, log entry 2). -/
def Obligations.RandomIsMaskedByImmediate : Prop :=
  ∀ (x : Reg) (nn : Byte) (s : State), ∃ t, exec (.rnd x nn) s = .next t ∧ Frame [.v, .draws] s t ∧
    (∀ r : Reg, t.reg r = if r = x then Config.rnd s.rndDraws &&& nn else s.reg r) ∧
    t.reg x &&& ~~~nn = 0 ∧ t.rndDraws = s.rndDraws + 1

/-! ### ALU (spec/43_alu.md) -/

/-- LD, OR, AND, XOR: the result in `V[x]`, every other register as it was, `VF` too unless it is the
destination (R131, R132, R133, R134; that `VF` is left alone is the spec's decision D18, log entry
17). -/
def Obligations.MoveAndLogicLeaveFlagAlone : Prop :=
  ∀ (x y : Reg) (s : State),
    (∃ t, exec (.ldReg x y) s = .next t ∧ Frame [.v] s t ∧
      ∀ r : Reg, t.reg r = if r = x then s.reg y else s.reg r) ∧
    (∃ t, exec (.orReg x y) s = .next t ∧ Frame [.v] s t ∧
      ∀ r : Reg, t.reg r = if r = x then s.reg x ||| s.reg y else s.reg r) ∧
    (∃ t, exec (.andReg x y) s = .next t ∧ Frame [.v] s t ∧
      ∀ r : Reg, t.reg r = if r = x then s.reg x &&& s.reg y else s.reg r) ∧
    (∃ t, exec (.xorReg x y) s = .next t ∧ Frame [.v] s t ∧
      ∀ r : Reg, t.reg r = if r = x then s.reg x ^^^ s.reg y else s.reg r)

/-- ADD Vx, Vy: the sum mod 256, and `VF` 1 exactly when the sum exceeds 255; when `x` is `F` the flag is
what remains (R24, R135; that the flag wins is the spec's decision D6, log entry 11). -/
def Obligations.AddSetsCarry : Prop :=
  ∀ (x y : Reg) (s : State), ∃ t, exec (.addReg x y) s = .next t ∧ Frame [.v] s t ∧
    ∀ r : Reg, (t.reg r).toNat =
      if r = 0xF then (if (s.reg x).toNat + (s.reg y).toNat > 255 then 1 else 0)
      else if r = x then ((s.reg x).toNat + (s.reg y).toNat) % 256 else (s.reg r).toNat

/-- SUB and SUBN: the difference mod 256, and `VF` 1 exactly when the minuend is strictly greater; when
`x` is `F` the flag is what remains (R24, R136, R138; the reduction mod 256 and SUBN's 0 are the spec's
decision D17, log entry 16, and that the flag wins is D6, log entry 11). -/
def Obligations.SubtractionsSetStrictlyGreater : Prop :=
  ∀ (x y : Reg) (s : State),
    (∃ t, exec (.subReg x y) s = .next t ∧ Frame [.v] s t ∧
      ∀ r : Reg, (t.reg r).toNat =
        if r = 0xF then (if (s.reg x).toNat > (s.reg y).toNat then 1 else 0)
        else if r = x then
          (if (s.reg x).toNat < (s.reg y).toNat then (s.reg x).toNat + 256 - (s.reg y).toNat
           else (s.reg x).toNat - (s.reg y).toNat)
        else (s.reg r).toNat) ∧
    (∃ t, exec (.subnReg x y) s = .next t ∧ Frame [.v] s t ∧
      ∀ r : Reg, (t.reg r).toNat =
        if r = 0xF then (if (s.reg y).toNat > (s.reg x).toNat then 1 else 0)
        else if r = x then
          (if (s.reg y).toNat < (s.reg x).toNat then (s.reg y).toNat + 256 - (s.reg x).toNat
           else (s.reg y).toNat - (s.reg x).toNat)
        else (s.reg r).toNat)

/-- SHR: `V[x]` shifted right by 1, the low bit in `VF`, `V[y]` without effect; when `x` is `F` the flag is
what remains (R24, R91, R137; that the flag wins is the spec's decision D6, log entry 11). -/
def Obligations.ShiftRightKeepsLowBitInFlag : Prop :=
  ∀ (x y : Reg) (s : State), ∃ t, exec (.shr x y) s = .next t ∧ Frame [.v] s t ∧
    ∀ r : Reg, (t.reg r).toNat =
      if r = 0xF then (s.reg x).toNat % 2
      else if r = x then (s.reg x).toNat / 2 else (s.reg r).toNat

/-- SHL: `V[x]` shifted left by 1 mod 256, the top bit in `VF`, `V[y]` without effect; when `x` is `F` the
flag is what remains (R24, R91, R139; the reduction mod 256 is the spec's decision D17, log entry 16,
and that the flag wins is D6, log entry 11). -/
def Obligations.ShiftLeftKeepsTopBitInFlag : Prop :=
  ∀ (x y : Reg) (s : State), ∃ t, exec (.shl x y) s = .next t ∧ Frame [.v] s t ∧
    ∀ r : Reg, (t.reg r).toNat =
      if r = 0xF then (s.reg x).toNat / 128
      else if r = x then (s.reg x).toNat * 2 % 256 else (s.reg r).toNat

/-- Every instruction of the flag table that completes leaves exactly 0 or 1 in `VF`, also when `VF` is its
destination (R22, R24; that the flag wins is the spec's decision D6, log entry 11). -/
def Obligations.FlagWritersLeaveZeroOrOne : Prop :=
  ∀ (i : Instr) (s t : State), writesFlag i → Running s → exec i s = .next t → t.halted = false →
    (t.reg 0xF).toNat ≤ 1

/-! ### Index register and memory (spec/44_index_and_memory.md) -/

/-- LD I, ADD I and LD F: the new value of `I`, and nothing else changed (R151, R152, R153; that `VF` is
left alone, the 12-bit mask and the unmasked operand of LD F are the spec's decisions D18, D19 and
D25, log entry 17). -/
def Obligations.IndexIsSetAddedAndScaled : Prop :=
  ∀ (nnn : Addr12) (x : Reg) (s : State),
    (∃ t, exec (.ldI nnn) s = .next t ∧ Frame [.i] s t ∧ t.i.toNat = nnn.toNat) ∧
    (∃ t, exec (.addI x) s = .next t ∧ Frame [.i] s t ∧
      t.i.toNat = (s.i.toNat + (s.reg x).toNat) % 4096) ∧
    (∃ t, exec (.ldF x) s = .next t ∧ Frame [.i] s t ∧ t.i.toNat = (s.reg x).toNat * 5)

/-- LD B: the hundreds, tens and ones digits of `V[x]` at `I`, `I+1`, `I+2`, every other byte as it was;
past the end of memory it takes `OutOfBounds` and stores nothing (R154; fault entry and precision are
decision D10, log entry 3). -/
def Obligations.BcdStoresThreeDigits : Prop :=
  ∀ (x : Reg) (s : State),
    (effAddr s 2 ≤ 0xFFF → ∃ t, exec (.ldB x) s = .next t ∧ Frame [.mem] s t ∧
      (t.mem.read (effAddr s 0)).toNat = (s.reg x).toNat / 100 ∧
      (t.mem.read (effAddr s 1)).toNat = (s.reg x).toNat / 10 % 10 ∧
      (t.mem.read (effAddr s 2)).toNat = (s.reg x).toNat % 10 ∧
      ∀ a : Nat, a < effAddr s 0 ∨ effAddr s 2 < a → t.mem.read a = s.mem.read a) ∧
    (effAddr s 2 > 0xFFF → ∃ t, exec (.ldB x) s = .next t ∧ FaultTaken 4 [] s t)

/-- LD [I], Vx: `V[0..x]` at `I..I+x`, every other byte as it was, `I` unchanged; past the end of memory it
takes `OutOfBounds` and stores nothing (R155; fault entry and precision are decision D10, log entry
3). -/
def Obligations.DumpStoresRegisters : Prop :=
  ∀ (x : Reg) (s : State),
    (effAddr s x.val ≤ 0xFFF → ∃ t, exec (.dump x) s = .next t ∧ Frame [.mem] s t ∧
      (∀ r : Reg, r ≤ x → t.mem.read (effAddr s r.val) = s.reg r) ∧
      ∀ a : Nat, a < effAddr s 0 ∨ effAddr s x.val < a → t.mem.read a = s.mem.read a) ∧
    (effAddr s x.val > 0xFFF → ∃ t, exec (.dump x) s = .next t ∧ FaultTaken 4 [] s t)

/-- LD Vx, [I]: the bytes `I..I+x` in `V[0..x]`, every other register and all of memory as they were; past
the end of memory it takes `OutOfBounds` and loads nothing (R156; fault entry and precision are
decision D10, log entry 3). -/
def Obligations.LoadFillsRegisters : Prop :=
  ∀ (x : Reg) (s : State),
    (effAddr s x.val ≤ 0xFFF → ∃ t, exec (.load x) s = .next t ∧ Frame [.v] s t ∧
      ∀ r : Reg, t.reg r = if r ≤ x then s.mem.read (effAddr s r.val) else s.reg r) ∧
    (effAddr s x.val > 0xFFF → ∃ t, exec (.load x) s = .next t ∧ FaultTaken 4 [] s t)

/-- A dump leaves `I` alone, and a load with the same `x` and `I` over the same memory then gives `V[0..x]`
their values before the dump, whatever else has happened to the registers in between (R150, R157; that a
dump leaves `I` alone is the spec's decision D18, log entry 17). -/
def Obligations.DumpThenLoadRestoresRegisters : Prop :=
  ∀ (x : Reg) (s : State), effAddr s x.val ≤ 0xFFF →
    ∃ t, exec (.dump x) s = .next t ∧ t.i = s.i ∧
      ∀ u : State, u.i = t.i → (∀ a : Nat, u.mem.read a = t.mem.read a) →
        ∃ w, exec (.load x) u = .next w ∧ ∀ r : Reg, r ≤ x → w.reg r = s.reg r

/-! ### Display (spec/45_display.md) -/

/-- CLS: every pixel off and `DRAW_PENDING` set, nothing else changed (R171, R175; that the flag is set
whatever the pixels were is the spec's decision D15, log entry 13). -/
def Obligations.ClearTurnsEveryPixelOff : Prop :=
  ∀ s : State, ∃ t, exec .cls s = .next t ∧ Frame [.fb, .drawPending] s t ∧
    (∀ idx : Nat, idx < 2048 → t.fb.pixel idx = false) ∧ t.drawPending = true

/-- DRW: each pixel is XORed with the sprite bit that falls on it, counted around the edges; `VF` is 1
exactly when some lit pixel was hit; `DRAW_PENDING` is set; nothing else changed. `Dxy0` included
(R172, R173, R174, R175; the bit order is the spec's decision D14, `Dxy0` D16, the flag on every draw
D15, log entries 12, 13). -/
def Obligations.DrawXorsWrappedSprite : Prop :=
  ∀ (x y : Reg) (n : Nibble) (s : State), (n.toNat ≥ 1 → effAddr s (n.toNat - 1) ≤ 0xFFF) →
    ∃ t, exec (.drw x y n) s = .next t ∧ Frame [.v, .fb, .drawPending] s t ∧
      (∀ px py : Nat, px < 64 → py < 32 → t.fb.pixel (py * 64 + px) =
        (s.fb.pixel (py * 64 + px) ^^ covers (s.reg x).toNat (s.reg y).toNat
          ((List.range n.toNat).map fun r => s.mem.read (effAddr s r)) px py)) ∧
      (∀ r : Reg, r ≠ 0xF → t.reg r = s.reg r) ∧
      (t.reg 0xF).toNat ≤ 1 ∧
      ((t.reg 0xF).toNat = 1 ↔ ∃ px py : Nat, px < 64 ∧ py < 32 ∧
        s.fb.pixel (py * 64 + px) = true ∧ covers (s.reg x).toNat (s.reg y).toNat
          ((List.range n.toNat).map fun r => s.mem.read (effAddr s r)) px py = true) ∧
      t.drawPending = true

/-- DRW past the end of memory takes `OutOfBounds`: no pixel, neither `VF` nor `DRAW_PENDING` changed (R173,
R207; fault entry and precision are decision D10, log entry 3). -/
def Obligations.DrawPastMemoryTakesOutOfBounds : Prop :=
  ∀ (x y : Reg) (n : Nibble) (s : State), n.toNat ≥ 1 → effAddr s (n.toNat - 1) > 0xFFF →
    ∃ t, exec (.drw x y n) s = .next t ∧ FaultTaken 4 [] s t

/-- Drawing the same sprite twice at the same place restores the display, and the second draw reports a
collision exactly when the first one lit a pixel (R177). -/
def Obligations.DrawTwiceRestoresDisplay : Prop :=
  ∀ (x y : Reg) (n : Nibble) (s : State), x ≠ 0xF → y ≠ 0xF →
    (n.toNat ≥ 1 → effAddr s (n.toNat - 1) ≤ 0xFFF) →
    ∃ t u, exec (.drw x y n) s = .next t ∧ exec (.drw x y n) t = .next u ∧
      (∀ idx : Nat, idx < 2048 → u.fb.pixel idx = s.fb.pixel idx) ∧
      ((u.reg 0xF).toNat = 1 ↔
        ∃ idx : Nat, idx < 2048 ∧ s.fb.pixel idx = false ∧ t.fb.pixel idx = true)

/-! ### Keypad (spec/46_keypad.md) -/

/-- SKP and SKNP: a further 2 on `pc`, on 16 bits, exactly when the key numbered by `V[x]` is down (up);
a key number above 15 takes `KeyIndexRange` (R181, R182, R184; the fault is the spec's decision D11,
log entry 9, its entry D10, log entry 3, and the 16-bit addition D8, log entry 14). -/
def Obligations.KeySkipsFollowKeyState : Prop :=
  ∀ (x : Reg) (s : State),
    ((s.reg x).toNat ≤ 15 →
      (∃ t, exec (.skp x) s = .next t ∧ Frame [.pc] s t ∧
        t.pc.toNat = if s.keys.getLsbD (s.reg x).toNat = true then (s.pc.toNat + 2) % 65536
          else s.pc.toNat) ∧
      (∃ t, exec (.sknp x) s = .next t ∧ Frame [.pc] s t ∧
        t.pc.toNat = if s.keys.getLsbD (s.reg x).toNat = true then s.pc.toNat
          else (s.pc.toNat + 2) % 65536)) ∧
    ((s.reg x).toNat > 15 →
      (∃ t, exec (.skp x) s = .next t ∧ FaultTaken 6 [] s t) ∧
      (∃ t, exec (.sknp x) s = .next t ∧ FaultTaken 6 [] s t))

/-- LD Vx, K with a key down: the least such key number goes to `V[x]` and `pc` stays advanced; with none
down `pc` goes back by 2, on 16 bits, and nothing else changes (R183, R185; that it is the least key is
the spec's decision D12, log entry 10; the 16-bit subtraction is read from D8, log entry 14). -/
def Obligations.KeyWaitStoresLeastKey : Prop :=
  ∀ (x : Reg) (s : State),
    (∀ k : Nat, k ≤ 15 → s.keys.getLsbD k = true → (∀ j : Nat, j < k → s.keys.getLsbD j = false) →
      ∃ t, exec (.ldVxK x) s = .next t ∧ Frame [.v] s t ∧
        ∀ r : Reg, (t.reg r).toNat = if r = x then k else (s.reg r).toNat) ∧
    ((∀ k : Nat, k ≤ 15 → s.keys.getLsbD k = false) →
      ∃ t, exec (.ldVxK x) s = .next t ∧ Frame [.pc] s t ∧
        t.pc.toNat = (s.pc.toNat + 65534) % 65536)

/-- A step that executes `Fx0A` with no key down is a complete step that leaves every piece of state, `PC`
included, exactly as it was (R183; the empty schedule, no other event between, is the model's own, log
entry 1). -/
def Obligations.KeyWaitStepIsIdentity : Prop :=
  ∀ (s : State) (x : Reg), Running s → s.schedule = [] → s.pc.toNat ≤ 0xFFE →
    decode [s.mem.read s.pc.toNat, s.mem.read (s.pc.toNat + 1)] = .ok (.ldVxK x, []) →
    (∀ k : Nat, k ≤ 15 → s.keys.getLsbD k = false) → step s = .next s

/-! ### Timers (spec/47_timers.md, spec/60_exceptions.md) -/

/-- The three timer instructions move one whole byte (R191, R192, R193). -/
def Obligations.TimerMovesOneByte : Prop :=
  ∀ (x : Reg) (s : State),
    (∃ t, exec (.ldVxDt x) s = .next t ∧ Frame [.v] s t ∧
      ∀ r : Reg, t.reg r = if r = x then s.dt else s.reg r) ∧
    (∃ t, exec (.ldDtVx x) s = .next t ∧ Frame [.dt] s t ∧ t.dt = s.reg x) ∧
    (∃ t, exec (.ldStVx x) s = .next t ∧ Frame [.st] s t ∧ t.st = s.reg x)

/-- `tick`: each timer goes down by exactly 1 unless it is 0, where it stays; nothing else changes, in
the halted state or not (R220, R222; that it acts while halted is the spec's decision D20, log entry
19). -/
def Obligations.TickCountsTimersDown : Prop :=
  ∀ s : State, (tick s).dt.toNat = s.dt.toNat - 1 ∧ (tick s).st.toNat = s.st.toNat - 1 ∧
    Frame [.dt, .st] s (tick s)

/-- After `k` ticks with nothing between them a timer that held `v` holds `v - k`, and 0 from the `v`-th
tick on (R221). -/
def Obligations.TimerReachesZeroAfterItsValueInTicks : Prop :=
  ∀ (s : State) (k : Nat),
    (tick^[k] s).dt.toNat = s.dt.toNat - k ∧ (tick^[k] s).st.toNat = s.st.toNat - k

/-! ### The other events (spec/00_scope.md R6) -/

/-- `set_keys` overwrites all 16 key bits, `draw_ack` clears the flag, each changing nothing else, and `tick`
counts the timers down (`TickCountsTimersDown`): each is what a step does when it is the environment's
next event, halted or not (R176, R180, R220, R222; that a tick acts while halted is the spec's decision
D20, log entry 19; that events wait in a schedule is the model's choice, log entry 1). -/
def Obligations.KeysAndAcknowledgeEvents : Prop :=
  ∀ (s : State) (keys : BitVec 16) (es : List Event),
    (s.schedule = .setKeys keys :: es → ∃ t, step s = .next t ∧ t.keys = keys ∧
      t.schedule = es ∧ Frame [.keys, .schedule] s t) ∧
    (s.schedule = .drawAck :: es → ∃ t, step s = .next t ∧ t.drawPending = false ∧
      t.schedule = es ∧ Frame [.drawPending, .schedule] s t) ∧
    (s.schedule = .tick :: es → step s = .next (tick (s.setSchedule es)))

/-- `load`: an image that fits stands at 0x200, byte by byte, every other byte as it was; a longer one
takes `RomTooLarge` and changes no memory; while halted it does nothing; and it is what a step does when it
is the environment's next event (R6, R209, R243, R244; the check, the fault, the halted case and a
repeated or late load are the spec's decision D22, log entry 18; fault entry is D10, log entry 3; that
events wait in a schedule is the model's choice, log entry 1). -/
def Obligations.LoadPlacesImage : Prop :=
  ∀ (s : State) (bytes : List Byte) (es : List Event),
    (s.schedule = .load bytes :: es → step s = .next (loadImage bytes (s.setSchedule es))) ∧
    (Running s → bytes.length ≤ 3584 → Frame [.mem] s (loadImage bytes s) ∧
      ∀ a : Nat, (loadImage bytes s).mem.read a =
        if 0x200 ≤ a ∧ a < 0x200 + bytes.length then bytes.getD (a - 0x200) 0 else s.mem.read a) ∧
    (Running s → bytes.length > 3584 → FaultTaken 5 [] s (loadImage bytes s)) ∧
    (s.halted = true → loadImage bytes s = s)

/-- `reset`, in any state, the halted one included, gives every observable piece its value: `PC` is 0x200, the font table is at 0x00..0x4F, memory
from 0x50 on reads 0, the stack is empty, and every register, timer, pixel, key and flag is 0 (R39,
R57, R240; but for `PC` these are the spec's decisions D3, D4, D5, D10, log entries 4, 6, 7). The
environment's coming events go on and no consumed random byte is drawn again: those two clauses speak of
the model's own fields and are its choice (log entries 1, 2, 22). -/
def Obligations.ResetSetsEveryPiece : Prop :=
  ∀ (s : State) (es : List Event), s.schedule = .reset :: es → ∃ t, step s = .next t ∧
    t.pc = 0x200 ∧ (∀ r : Reg, t.reg r = 0) ∧ t.i = 0 ∧ t.sp.val = 0 ∧ t.dt = 0 ∧ t.st = 0 ∧
    (∀ idx : Nat, idx < 2048 → t.fb.pixel idx = false) ∧ t.keys = 0 ∧ t.drawPending = false ∧
    t.halted = false ∧ t.faultCause = 0 ∧
    t.mem.readBytes 0x00 20 = [0xF0, 0x90, 0x90, 0x90, 0xF0, 0x20, 0x60, 0x20, 0x20, 0x70,
      0xF0, 0x10, 0xF0, 0x80, 0xF0, 0xF0, 0x10, 0xF0, 0x10, 0xF0] ∧
    t.mem.readBytes 0x14 20 = [0x90, 0x90, 0xF0, 0x10, 0x10, 0xF0, 0x80, 0xF0, 0x10, 0xF0,
      0xF0, 0x80, 0xF0, 0x90, 0xF0, 0xF0, 0x10, 0x20, 0x40, 0x40] ∧
    t.mem.readBytes 0x28 20 = [0xF0, 0x90, 0xF0, 0x90, 0xF0, 0xF0, 0x90, 0xF0, 0x10, 0xF0,
      0xF0, 0x90, 0xF0, 0x90, 0x90, 0xE0, 0x90, 0xE0, 0x90, 0xE0] ∧
    t.mem.readBytes 0x3C 20 = [0xF0, 0x80, 0x80, 0x80, 0xF0, 0xE0, 0x90, 0x90, 0x90, 0xE0,
      0xF0, 0x80, 0xF0, 0x80, 0xF0, 0xF0, 0x80, 0xF0, 0x80, 0x80] ∧
    (∀ a : Nat, 0x50 ≤ a → t.mem.read a = 0) ∧ t.schedule = es ∧ t.rndDraws = s.rndDraws

/-! ### Rules about the whole instruction set -/

/-- Only CLS and DRW change the display or `DRAW_PENDING`, and they only ever set the flag (R170, R175;
the spec's decision D15, log entry 13). -/
def Obligations.OnlyClearAndDrawWriteDisplay : Prop :=
  ∀ (i : Instr) (s t : State), exec i s = .next t →
    ((¬ Part.fb.same s t ∨ ¬ Part.drawPending.same s t) → i = .cls ∨ ∃ x y n, i = .drw x y n) ∧
    (s.drawPending = true → t.drawPending = true)

/-- Only `Fx33` and `Fx55` change memory, and only bytes from `I` on, at most 16 of them (R51, R60). -/
def Obligations.OnlyBcdAndDumpWriteMemory : Prop :=
  ∀ (i : Instr) (s t : State), exec i s = .next t → ∀ a : Nat, t.mem.read a ≠ s.mem.read a →
    ((∃ x, i = .ldB x ∧ s.i.toNat ≤ a ∧ a < s.i.toNat + 3) ∨
      ∃ x, i = .dump x ∧ s.i.toNat ≤ a ∧ a ≤ s.i.toNat + x.val) ∧ a ≤ 0xFFF

/-- Only `Annn`, `Fx1E` and `Fx29` change `I`, and what they leave is at most 0xFFF (R25). -/
def Obligations.OnlyThreeInstructionsWriteIndex : Prop :=
  ∀ (i : Instr) (s t : State), exec i s = .next t → t.i ≠ s.i →
    ((∃ nnn, i = .ldI nnn) ∨ (∃ x, i = .addI x) ∨ ∃ x, i = .ldF x) ∧ t.i.toNat ≤ 0xFFF

/-- A register changes only when it is the destination of the instruction, or is `VF` and the instruction
is one of the flag table (R22). -/
def Obligations.RegistersChangeOnlyWhereNamed : Prop :=
  ∀ (i : Instr) (s t : State), exec i s = .next t → ∀ r : Reg, t.reg r ≠ s.reg r → writesReg i r

/-- Every instruction but the jumps, the call, the return, the skips and `Fx0A` leaves `pc` at the address
of the next instruction (R27). -/
def Obligations.StraightLineKeepsPc : Prop :=
  ∀ (i : Instr) (s t : State), straightLine i → exec i s = .next t → t.pc = s.pc

/-- No instruction writes a key bit or the environment's schedule; `DT` is written by `Fx15` only, `ST` by
`Fx18` only, the stack by CALL and RET only, and a random byte is consumed by `Cxnn` only (R29, R32,
R34, R123, R190; the schedule and the count of random bytes are the model's own, log entries 1, 2). -/
def Obligations.KeysTimersAndStackHaveFewWriters : Prop :=
  ∀ (i : Instr) (s t : State), exec i s = .next t → t.keys = s.keys ∧ t.schedule = s.schedule ∧
    (t.dt ≠ s.dt → ∃ x, i = .ldDtVx x) ∧ (t.st ≠ s.st → ∃ x, i = .ldStVx x) ∧
    (¬ Part.stack.same s t → i = .ret ∨ ∃ nnn, i = .call nnn) ∧
    (t.rndDraws ≠ s.rndDraws → ∃ x nn, i = .rnd x nn)

/-- No instruction reads `ST` or `DRAW_PENDING`: two states that agree in everything else, the count of
consumed random bytes included, go to states that agree in everything else (R32, R35, R193). For RND this
compares two runs that are given the same random byte, as R7 has it for one input `rnd`; that equal counts
draw equal bytes is the model's choice (decision D13, log entry 2, which calls it unsafe to rely on). -/
def Obligations.SoundTimerAndDrawFlagAreNeverRead : Prop :=
  ∀ (i : Instr) (s s' t t' : State), AgreeExcept [.st, .drawPending] s s' →
    exec i s = .next t → exec i s' = .next t' → AgreeExcept [.st, .drawPending] t t'

/-! ### The invariant -/

/-- The invariant holds after reset (R39, R240; the zeros and the memory fill are the spec's decisions D3,
D4, log entries 4, 6). -/
def Obligations.ResetMeetsInvariant : Prop := Invariant State.reset

/-- Every step, whatever event it is, keeps the invariant: memory canonical, `I` at most 0xFFF, `PC` at most
0x1002, live stack entries at most 0x1000, halted exactly when a listed fault cause is recorded (R25,
R28, R36, R101; these bounds are the spec's own derivations). -/
def Obligations.EveryStepKeepsInvariant : Prop :=
  ∀ s t : State, Invariant s → step s = .next t → Invariant t
end

