-- ==== Sys2Proof/Laws/Decode.lean ====
section
/-! SUPPORT. The field laws of the encoder's formats: each field of a word put together from fields is
that field again. The decode and encode claims are proved from these. -/

namespace Sys2Proof

/-! ### The bits of an encoded word -/

theorem getLsbD_encodeNNN (op : Nibble) (nnn : Addr12) (i : Nat) :
    (encodeNNN op nnn).getLsbD i = if i < 12 then nnn.getLsbD i else op.getLsbD (i - 12) :=
  BitVec.getLsbD_append

theorem getLsbD_encodeXNN (op : Nibble) (x : Reg) (nn : Byte) (i : Nat) :
    (encodeXNN op x nn).getLsbD i =
      if i < 8 then nn.getLsbD i
      else if i - 8 < 4 then (BitVec.ofFin x : Nibble).getLsbD (i - 8) else op.getLsbD (i - 8 - 4) := by
  refine (BitVec.getLsbD_append (x := op ++ (BitVec.ofFin x : Nibble)) (y := nn)).trans ?_
  rw [BitVec.getLsbD_append]

theorem getLsbD_encodeXYN (op : Nibble) (x y : Reg) (n : Nibble) (i : Nat) :
    (encodeXYN op x y n).getLsbD i =
      if i < 4 then n.getLsbD i
      else if i - 4 < 4 then (BitVec.ofFin y : Nibble).getLsbD (i - 4)
      else if i - 4 - 4 < 4 then (BitVec.ofFin x : Nibble).getLsbD (i - 4 - 4)
      else op.getLsbD (i - 4 - 4 - 4) := by
  refine (BitVec.getLsbD_append (y := n)
    (x := op ++ (BitVec.ofFin x : Nibble) ++ (BitVec.ofFin y : Nibble))).trans ?_
  rw [BitVec.getLsbD_append, BitVec.getLsbD_append]

/-- A field of a word, bit by bit. -/
theorem extract_eq {w : Nat} (word : Word) (lo : Nat) (f : BitVec w)
    (h : ∀ i, i < w → word.getLsbD (lo + i) = f.getLsbD i) : word.extractLsb' lo w = f := by
  apply BitVec.eq_of_getLsbD_eq
  intro i hi
  rw [BitVec.getLsbD_extractLsb', h i hi]
  simp [hi]

/-! ### Each field read back -/

@[simp] theorem opOf_encodeNNN (op : Nibble) (nnn : Addr12) : opOf (encodeNNN op nnn) = op :=
  extract_eq _ _ _ fun i _ => by simp [getLsbD_encodeNNN]

@[simp] theorem nnnOf_encodeNNN (op : Nibble) (nnn : Addr12) : nnnOf (encodeNNN op nnn) = nnn :=
  extract_eq _ _ _ fun i hi => by simp [getLsbD_encodeNNN, hi]

@[simp] theorem opOf_encodeXNN (op : Nibble) (x : Reg) (nn : Byte) :
    opOf (encodeXNN op x nn) = op :=
  extract_eq _ _ _ fun i _ => by
    have h1 : ¬ 12 + i < 8 := by omega
    have h2 : ¬ 12 + i - 8 < 4 := by omega
    have h3 : 12 + i - 8 - 4 = i := by omega
    simp only [getLsbD_encodeXNN, h1, h2, h3, if_false]

@[simp] theorem xOf_encodeXNN (op : Nibble) (x : Reg) (nn : Byte) : xOf (encodeXNN op x nn) = x := by
  have : (encodeXNN op x nn).extractLsb' 8 4 = BitVec.ofFin x :=
    extract_eq _ _ _ fun i hi => by
      have h1 : ¬ 8 + i < 8 := by omega
      have h2 : 8 + i - 8 = i := by omega
      simp only [getLsbD_encodeXNN, h1, h2, hi, if_false, if_true]
  simp [xOf, this]

@[simp] theorem nnOf_encodeXNN (op : Nibble) (x : Reg) (nn : Byte) :
    nnOf (encodeXNN op x nn) = nn :=
  extract_eq _ _ _ fun i hi => by simp [getLsbD_encodeXNN, hi]

@[simp] theorem opOf_encodeXYN (op : Nibble) (x y : Reg) (n : Nibble) :
    opOf (encodeXYN op x y n) = op :=
  extract_eq _ _ _ fun i _ => by
    have h1 : ¬ 12 + i < 4 := by omega
    have h2 : ¬ 12 + i - 4 < 4 := by omega
    have h3 : ¬ 12 + i - 4 - 4 < 4 := by omega
    have h4 : 12 + i - 4 - 4 - 4 = i := by omega
    simp only [getLsbD_encodeXYN, h1, h2, h3, h4, if_false]

@[simp] theorem xOf_encodeXYN (op : Nibble) (x y : Reg) (n : Nibble) :
    xOf (encodeXYN op x y n) = x := by
  have : (encodeXYN op x y n).extractLsb' 8 4 = BitVec.ofFin x :=
    extract_eq _ _ _ fun i hi => by
      have h1 : ¬ 8 + i < 4 := by omega
      have h2 : ¬ 8 + i - 4 < 4 := by omega
      have h3 : 8 + i - 4 - 4 = i := by omega
      simp only [getLsbD_encodeXYN, h1, h2, h3, hi, if_false, if_true]
  simp [xOf, this]

@[simp] theorem yOf_encodeXYN (op : Nibble) (x y : Reg) (n : Nibble) :
    yOf (encodeXYN op x y n) = y := by
  have : (encodeXYN op x y n).extractLsb' 4 4 = BitVec.ofFin y :=
    extract_eq _ _ _ fun i hi => by
      have h1 : ¬ 4 + i < 4 := by omega
      have h2 : 4 + i - 4 = i := by omega
      simp only [getLsbD_encodeXYN, h1, h2, hi, if_false, if_true]
  simp [yOf, this]

@[simp] theorem nOf_encodeXYN (op : Nibble) (x y : Reg) (n : Nibble) :
    nOf (encodeXYN op x y n) = n :=
  extract_eq _ _ _ fun i hi => by simp [getLsbD_encodeXYN, hi]

/-- A register field as bits is the word's own bits. -/
theorem ofFin_xOf (w : Word) : (BitVec.ofFin (xOf w) : Nibble) = w.extractLsb' 8 4 := rfl

theorem ofFin_yOf (w : Word) : (BitVec.ofFin (yOf w) : Nibble) = w.extractLsb' 4 4 := rfl

/-! ### Every word is put together from its fields -/

/-- Two words with the same bits in each field are the same word. -/
theorem encodeNNN_fields (w : Word) : encodeNNN (opOf w) (nnnOf w) = w := by
  apply BitVec.eq_of_getLsbD_eq
  intro i hi
  rw [getLsbD_encodeNNN]
  split
  · next h => simp [nnnOf, h]
  · next h =>
    have : i - 12 < 4 := by omega
    have h' : 12 + (i - 12) = i := by omega
    simp [opOf, this, h']

theorem encodeXNN_fields (w : Word) : encodeXNN (opOf w) (xOf w) (nnOf w) = w := by
  apply BitVec.eq_of_getLsbD_eq
  intro i hi
  rw [getLsbD_encodeXNN]
  split
  · next h => simp [nnOf, h]
  · split
    · next h h2 =>
      have h' : 8 + (i - 8) = i := by omega
      simp [ofFin_xOf, h2, h']
    · next h h2 =>
      have h3 : i - 8 - 4 < 4 := by omega
      have h' : 12 + (i - 8 - 4) = i := by omega
      simp [opOf, h3, h']

theorem encodeXYN_fields (w : Word) : encodeXYN (opOf w) (xOf w) (yOf w) (nOf w) = w := by
  apply BitVec.eq_of_getLsbD_eq
  intro i hi
  rw [getLsbD_encodeXYN]
  split
  · next h => simp [nOf, h]
  · split
    · next h h2 =>
      have h' : 4 + (i - 4) = i := by omega
      simp [ofFin_yOf, h2, h']
    · split
      · next h h2 h3 =>
        have h' : 8 + (i - 4 - 4) = i := by omega
        simp [ofFin_xOf, h3, h']
      · next h h2 h3 =>
        have h4 : i - 4 - 4 - 4 < 4 := by omega
        have h' : 12 + (i - 4 - 4 - 4) = i := by omega
        simp [opOf, h4, h']

/-- Two words are the same exactly when their four nibbles are: a mask is compared nibble by nibble. -/
theorem word_eq_iff_nibbles (a b : Word) : a = b ↔ opOf a = opOf b ∧
    a.extractLsb' 8 4 = b.extractLsb' 8 4 ∧ a.extractLsb' 4 4 = b.extractLsb' 4 4 ∧
    nOf a = nOf b := by
  refine ⟨by rintro rfl; simp, fun ⟨h12, h8, h4, h0⟩ => BitVec.eq_of_getLsbD_eq fun i hi => ?_⟩
  have bit : ∀ lo : Nat, a.extractLsb' lo 4 = b.extractLsb' lo 4 → lo ≤ i → i < lo + 4 →
      a.getLsbD i = b.getLsbD i := fun lo h hl hu => by
    have hb := congrArg (fun v => v.getLsbD (i - lo)) h
    have hi' : lo + (i - lo) = i := by omega
    have hw : i - lo < 4 := by omega
    simpa [hi', hw] using hb
  by_cases h : i < 4
  · exact bit 0 h0 (by omega) (by omega)
  · by_cases h' : i < 8
    · exact bit 4 h4 (by omega) (by omega)
    · by_cases h'' : i < 12
      · exact bit 8 h8 (by omega) (by omega)
      · exact bit 12 h12 (by omega) (by omega)

/-- The low byte of a word is its two low nibbles. -/
theorem nnOf_eq_append (w : Word) (a b : Nibble) (ha : w.extractLsb' 4 4 = a) (hb : nOf w = b) :
    nnOf w = a ++ b := by
  apply BitVec.eq_of_getLsbD_eq
  intro i hi
  rw [BitVec.getLsbD_append, ← ha, ← hb]
  split
  · next h => simp [nnOf, nOf, h, hi]
  · next h =>
    have h4 : i - 4 < 4 := by omega
    have h5 : 4 + (i - 4) = i := by omega
    simp [nnOf, hi, h4, h5]

@[simp] theorem nibble_and_ones (k : Nibble) : k &&& 0xF#4 = k :=
  BitVec.and_allOnes

/-- The bytes of a word put together again are the word (R55). -/
theorem wordOfBytes_bytes (w : Word) : wordOfBytes (hiByte w) (loByte w) = w := by
  apply BitVec.eq_of_getLsbD_eq
  intro i hi
  refine (BitVec.getLsbD_append (x := hiByte w) (y := loByte w)).trans ?_
  split
  · next h => simp [loByte, h]
  · next h =>
    have : i - 8 < 8 := by omega
    have h' : 8 + (i - 8) = i := by omega
    simp [hiByte, this, h']

end Sys2Proof
end

