-- ==== Sys2Proof/Laws/State.lean ====
section
/-! SUPPORT. What each named update of the state does to each field: one lemma per field per update,
true by rfl. Registers are read through `State.reg`; its laws follow at the end. -/

namespace Sys2Proof.Machine

/-! ### State.setReg -/

@[simp] theorem State.setReg_i (s : State) (x : Reg) (b : Byte) : (s.setReg x b).i = s.i := rfl
@[simp] theorem State.setReg_pc (s : State) (x : Reg) (b : Byte) : (s.setReg x b).pc = s.pc := rfl
@[simp] theorem State.setReg_stack (s : State) (x : Reg) (b : Byte) :
    (s.setReg x b).stack = s.stack := rfl
@[simp] theorem State.setReg_sp (s : State) (x : Reg) (b : Byte) : (s.setReg x b).sp = s.sp := rfl
@[simp] theorem State.setReg_dt (s : State) (x : Reg) (b : Byte) : (s.setReg x b).dt = s.dt := rfl
@[simp] theorem State.setReg_st (s : State) (x : Reg) (b : Byte) : (s.setReg x b).st = s.st := rfl
@[simp] theorem State.setReg_mem (s : State) (x : Reg) (b : Byte) :
    (s.setReg x b).mem = s.mem := rfl
@[simp] theorem State.setReg_fb (s : State) (x : Reg) (b : Byte) : (s.setReg x b).fb = s.fb := rfl
@[simp] theorem State.setReg_keys (s : State) (x : Reg) (b : Byte) :
    (s.setReg x b).keys = s.keys := rfl
@[simp] theorem State.setReg_drawPending (s : State) (x : Reg) (b : Byte) :
    (s.setReg x b).drawPending = s.drawPending := rfl
@[simp] theorem State.setReg_halted (s : State) (x : Reg) (b : Byte) :
    (s.setReg x b).halted = s.halted := rfl
@[simp] theorem State.setReg_faultCause (s : State) (x : Reg) (b : Byte) :
    (s.setReg x b).faultCause = s.faultCause := rfl
@[simp] theorem State.setReg_rndDraws (s : State) (x : Reg) (b : Byte) :
    (s.setReg x b).rndDraws = s.rndDraws := rfl
@[simp] theorem State.setReg_schedule (s : State) (x : Reg) (b : Byte) :
    (s.setReg x b).schedule = s.schedule := rfl

/-! ### State.setRegFlag -/

@[simp] theorem State.setRegFlag_i (s : State) (x : Reg) (r f : Byte) :
    (s.setRegFlag x r f).i = s.i := rfl
@[simp] theorem State.setRegFlag_pc (s : State) (x : Reg) (r f : Byte) :
    (s.setRegFlag x r f).pc = s.pc := rfl
@[simp] theorem State.setRegFlag_stack (s : State) (x : Reg) (r f : Byte) :
    (s.setRegFlag x r f).stack = s.stack := rfl
@[simp] theorem State.setRegFlag_sp (s : State) (x : Reg) (r f : Byte) :
    (s.setRegFlag x r f).sp = s.sp := rfl
@[simp] theorem State.setRegFlag_dt (s : State) (x : Reg) (r f : Byte) :
    (s.setRegFlag x r f).dt = s.dt := rfl
@[simp] theorem State.setRegFlag_st (s : State) (x : Reg) (r f : Byte) :
    (s.setRegFlag x r f).st = s.st := rfl
@[simp] theorem State.setRegFlag_mem (s : State) (x : Reg) (r f : Byte) :
    (s.setRegFlag x r f).mem = s.mem := rfl
@[simp] theorem State.setRegFlag_fb (s : State) (x : Reg) (r f : Byte) :
    (s.setRegFlag x r f).fb = s.fb := rfl
@[simp] theorem State.setRegFlag_keys (s : State) (x : Reg) (r f : Byte) :
    (s.setRegFlag x r f).keys = s.keys := rfl
@[simp] theorem State.setRegFlag_drawPending (s : State) (x : Reg) (r f : Byte) :
    (s.setRegFlag x r f).drawPending = s.drawPending := rfl
@[simp] theorem State.setRegFlag_halted (s : State) (x : Reg) (r f : Byte) :
    (s.setRegFlag x r f).halted = s.halted := rfl
@[simp] theorem State.setRegFlag_faultCause (s : State) (x : Reg) (r f : Byte) :
    (s.setRegFlag x r f).faultCause = s.faultCause := rfl
@[simp] theorem State.setRegFlag_rndDraws (s : State) (x : Reg) (r f : Byte) :
    (s.setRegFlag x r f).rndDraws = s.rndDraws := rfl
@[simp] theorem State.setRegFlag_schedule (s : State) (x : Reg) (r f : Byte) :
    (s.setRegFlag x r f).schedule = s.schedule := rfl

/-! ### State.setRegsUpTo -/

@[simp] theorem State.setRegsUpTo_i (s : State) (x : Reg) (f : Nat → Byte) :
    (s.setRegsUpTo x f).i = s.i := rfl
@[simp] theorem State.setRegsUpTo_pc (s : State) (x : Reg) (f : Nat → Byte) :
    (s.setRegsUpTo x f).pc = s.pc := rfl
@[simp] theorem State.setRegsUpTo_stack (s : State) (x : Reg) (f : Nat → Byte) :
    (s.setRegsUpTo x f).stack = s.stack := rfl
@[simp] theorem State.setRegsUpTo_sp (s : State) (x : Reg) (f : Nat → Byte) :
    (s.setRegsUpTo x f).sp = s.sp := rfl
@[simp] theorem State.setRegsUpTo_dt (s : State) (x : Reg) (f : Nat → Byte) :
    (s.setRegsUpTo x f).dt = s.dt := rfl
@[simp] theorem State.setRegsUpTo_st (s : State) (x : Reg) (f : Nat → Byte) :
    (s.setRegsUpTo x f).st = s.st := rfl
@[simp] theorem State.setRegsUpTo_mem (s : State) (x : Reg) (f : Nat → Byte) :
    (s.setRegsUpTo x f).mem = s.mem := rfl
@[simp] theorem State.setRegsUpTo_fb (s : State) (x : Reg) (f : Nat → Byte) :
    (s.setRegsUpTo x f).fb = s.fb := rfl
@[simp] theorem State.setRegsUpTo_keys (s : State) (x : Reg) (f : Nat → Byte) :
    (s.setRegsUpTo x f).keys = s.keys := rfl
@[simp] theorem State.setRegsUpTo_drawPending (s : State) (x : Reg) (f : Nat → Byte) :
    (s.setRegsUpTo x f).drawPending = s.drawPending := rfl
@[simp] theorem State.setRegsUpTo_halted (s : State) (x : Reg) (f : Nat → Byte) :
    (s.setRegsUpTo x f).halted = s.halted := rfl
@[simp] theorem State.setRegsUpTo_faultCause (s : State) (x : Reg) (f : Nat → Byte) :
    (s.setRegsUpTo x f).faultCause = s.faultCause := rfl
@[simp] theorem State.setRegsUpTo_rndDraws (s : State) (x : Reg) (f : Nat → Byte) :
    (s.setRegsUpTo x f).rndDraws = s.rndDraws := rfl
@[simp] theorem State.setRegsUpTo_schedule (s : State) (x : Reg) (f : Nat → Byte) :
    (s.setRegsUpTo x f).schedule = s.schedule := rfl

/-! ### State.setI -/

@[simp] theorem State.setI_v (s : State) (w : Word) : (s.setI w).v = s.v := rfl
@[simp] theorem State.setI_i (s : State) (w : Word) : (s.setI w).i = w := rfl
@[simp] theorem State.setI_pc (s : State) (w : Word) : (s.setI w).pc = s.pc := rfl
@[simp] theorem State.setI_stack (s : State) (w : Word) : (s.setI w).stack = s.stack := rfl
@[simp] theorem State.setI_sp (s : State) (w : Word) : (s.setI w).sp = s.sp := rfl
@[simp] theorem State.setI_dt (s : State) (w : Word) : (s.setI w).dt = s.dt := rfl
@[simp] theorem State.setI_st (s : State) (w : Word) : (s.setI w).st = s.st := rfl
@[simp] theorem State.setI_mem (s : State) (w : Word) : (s.setI w).mem = s.mem := rfl
@[simp] theorem State.setI_fb (s : State) (w : Word) : (s.setI w).fb = s.fb := rfl
@[simp] theorem State.setI_keys (s : State) (w : Word) : (s.setI w).keys = s.keys := rfl
@[simp] theorem State.setI_drawPending (s : State) (w : Word) :
    (s.setI w).drawPending = s.drawPending := rfl
@[simp] theorem State.setI_halted (s : State) (w : Word) : (s.setI w).halted = s.halted := rfl
@[simp] theorem State.setI_faultCause (s : State) (w : Word) :
    (s.setI w).faultCause = s.faultCause := rfl
@[simp] theorem State.setI_rndDraws (s : State) (w : Word) : (s.setI w).rndDraws = s.rndDraws := rfl
@[simp] theorem State.setI_schedule (s : State) (w : Word) : (s.setI w).schedule = s.schedule := rfl

/-! ### State.setPc -/

@[simp] theorem State.setPc_v (s : State) (w : Word) : (s.setPc w).v = s.v := rfl
@[simp] theorem State.setPc_i (s : State) (w : Word) : (s.setPc w).i = s.i := rfl
@[simp] theorem State.setPc_pc (s : State) (w : Word) : (s.setPc w).pc = w := rfl
@[simp] theorem State.setPc_stack (s : State) (w : Word) : (s.setPc w).stack = s.stack := rfl
@[simp] theorem State.setPc_sp (s : State) (w : Word) : (s.setPc w).sp = s.sp := rfl
@[simp] theorem State.setPc_dt (s : State) (w : Word) : (s.setPc w).dt = s.dt := rfl
@[simp] theorem State.setPc_st (s : State) (w : Word) : (s.setPc w).st = s.st := rfl
@[simp] theorem State.setPc_mem (s : State) (w : Word) : (s.setPc w).mem = s.mem := rfl
@[simp] theorem State.setPc_fb (s : State) (w : Word) : (s.setPc w).fb = s.fb := rfl
@[simp] theorem State.setPc_keys (s : State) (w : Word) : (s.setPc w).keys = s.keys := rfl
@[simp] theorem State.setPc_drawPending (s : State) (w : Word) :
    (s.setPc w).drawPending = s.drawPending := rfl
@[simp] theorem State.setPc_halted (s : State) (w : Word) : (s.setPc w).halted = s.halted := rfl
@[simp] theorem State.setPc_faultCause (s : State) (w : Word) :
    (s.setPc w).faultCause = s.faultCause := rfl
@[simp] theorem State.setPc_rndDraws (s : State) (w : Word) :
    (s.setPc w).rndDraws = s.rndDraws := rfl
@[simp] theorem State.setPc_schedule (s : State) (w : Word) :
    (s.setPc w).schedule = s.schedule := rfl

/-! ### State.advancePc -/

@[simp] theorem State.advancePc_v (s : State) : (s.advancePc).v = s.v := rfl
@[simp] theorem State.advancePc_i (s : State) : (s.advancePc).i = s.i := rfl
@[simp] theorem State.advancePc_pc (s : State) : (s.advancePc).pc = s.pc + 2 := rfl
@[simp] theorem State.advancePc_stack (s : State) : (s.advancePc).stack = s.stack := rfl
@[simp] theorem State.advancePc_sp (s : State) : (s.advancePc).sp = s.sp := rfl
@[simp] theorem State.advancePc_dt (s : State) : (s.advancePc).dt = s.dt := rfl
@[simp] theorem State.advancePc_st (s : State) : (s.advancePc).st = s.st := rfl
@[simp] theorem State.advancePc_mem (s : State) : (s.advancePc).mem = s.mem := rfl
@[simp] theorem State.advancePc_fb (s : State) : (s.advancePc).fb = s.fb := rfl
@[simp] theorem State.advancePc_keys (s : State) : (s.advancePc).keys = s.keys := rfl
@[simp] theorem State.advancePc_drawPending (s : State) :
    (s.advancePc).drawPending = s.drawPending := rfl
@[simp] theorem State.advancePc_halted (s : State) : (s.advancePc).halted = s.halted := rfl
@[simp] theorem State.advancePc_faultCause (s : State) :
    (s.advancePc).faultCause = s.faultCause := rfl
@[simp] theorem State.advancePc_rndDraws (s : State) : (s.advancePc).rndDraws = s.rndDraws := rfl
@[simp] theorem State.advancePc_schedule (s : State) : (s.advancePc).schedule = s.schedule := rfl

/-! ### State.retreatPc -/

@[simp] theorem State.retreatPc_v (s : State) : (s.retreatPc).v = s.v := rfl
@[simp] theorem State.retreatPc_i (s : State) : (s.retreatPc).i = s.i := rfl
@[simp] theorem State.retreatPc_pc (s : State) : (s.retreatPc).pc = s.pc - 2 := rfl
@[simp] theorem State.retreatPc_stack (s : State) : (s.retreatPc).stack = s.stack := rfl
@[simp] theorem State.retreatPc_sp (s : State) : (s.retreatPc).sp = s.sp := rfl
@[simp] theorem State.retreatPc_dt (s : State) : (s.retreatPc).dt = s.dt := rfl
@[simp] theorem State.retreatPc_st (s : State) : (s.retreatPc).st = s.st := rfl
@[simp] theorem State.retreatPc_mem (s : State) : (s.retreatPc).mem = s.mem := rfl
@[simp] theorem State.retreatPc_fb (s : State) : (s.retreatPc).fb = s.fb := rfl
@[simp] theorem State.retreatPc_keys (s : State) : (s.retreatPc).keys = s.keys := rfl
@[simp] theorem State.retreatPc_drawPending (s : State) :
    (s.retreatPc).drawPending = s.drawPending := rfl
@[simp] theorem State.retreatPc_halted (s : State) : (s.retreatPc).halted = s.halted := rfl
@[simp] theorem State.retreatPc_faultCause (s : State) :
    (s.retreatPc).faultCause = s.faultCause := rfl
@[simp] theorem State.retreatPc_rndDraws (s : State) : (s.retreatPc).rndDraws = s.rndDraws := rfl
@[simp] theorem State.retreatPc_schedule (s : State) : (s.retreatPc).schedule = s.schedule := rfl

/-! ### State.setDt -/

@[simp] theorem State.setDt_v (s : State) (b : Byte) : (s.setDt b).v = s.v := rfl
@[simp] theorem State.setDt_i (s : State) (b : Byte) : (s.setDt b).i = s.i := rfl
@[simp] theorem State.setDt_pc (s : State) (b : Byte) : (s.setDt b).pc = s.pc := rfl
@[simp] theorem State.setDt_stack (s : State) (b : Byte) : (s.setDt b).stack = s.stack := rfl
@[simp] theorem State.setDt_sp (s : State) (b : Byte) : (s.setDt b).sp = s.sp := rfl
@[simp] theorem State.setDt_dt (s : State) (b : Byte) : (s.setDt b).dt = b := rfl
@[simp] theorem State.setDt_st (s : State) (b : Byte) : (s.setDt b).st = s.st := rfl
@[simp] theorem State.setDt_mem (s : State) (b : Byte) : (s.setDt b).mem = s.mem := rfl
@[simp] theorem State.setDt_fb (s : State) (b : Byte) : (s.setDt b).fb = s.fb := rfl
@[simp] theorem State.setDt_keys (s : State) (b : Byte) : (s.setDt b).keys = s.keys := rfl
@[simp] theorem State.setDt_drawPending (s : State) (b : Byte) :
    (s.setDt b).drawPending = s.drawPending := rfl
@[simp] theorem State.setDt_halted (s : State) (b : Byte) : (s.setDt b).halted = s.halted := rfl
@[simp] theorem State.setDt_faultCause (s : State) (b : Byte) :
    (s.setDt b).faultCause = s.faultCause := rfl
@[simp] theorem State.setDt_rndDraws (s : State) (b : Byte) :
    (s.setDt b).rndDraws = s.rndDraws := rfl
@[simp] theorem State.setDt_schedule (s : State) (b : Byte) :
    (s.setDt b).schedule = s.schedule := rfl

/-! ### State.setSt -/

@[simp] theorem State.setSt_v (s : State) (b : Byte) : (s.setSt b).v = s.v := rfl
@[simp] theorem State.setSt_i (s : State) (b : Byte) : (s.setSt b).i = s.i := rfl
@[simp] theorem State.setSt_pc (s : State) (b : Byte) : (s.setSt b).pc = s.pc := rfl
@[simp] theorem State.setSt_stack (s : State) (b : Byte) : (s.setSt b).stack = s.stack := rfl
@[simp] theorem State.setSt_sp (s : State) (b : Byte) : (s.setSt b).sp = s.sp := rfl
@[simp] theorem State.setSt_dt (s : State) (b : Byte) : (s.setSt b).dt = s.dt := rfl
@[simp] theorem State.setSt_st (s : State) (b : Byte) : (s.setSt b).st = b := rfl
@[simp] theorem State.setSt_mem (s : State) (b : Byte) : (s.setSt b).mem = s.mem := rfl
@[simp] theorem State.setSt_fb (s : State) (b : Byte) : (s.setSt b).fb = s.fb := rfl
@[simp] theorem State.setSt_keys (s : State) (b : Byte) : (s.setSt b).keys = s.keys := rfl
@[simp] theorem State.setSt_drawPending (s : State) (b : Byte) :
    (s.setSt b).drawPending = s.drawPending := rfl
@[simp] theorem State.setSt_halted (s : State) (b : Byte) : (s.setSt b).halted = s.halted := rfl
@[simp] theorem State.setSt_faultCause (s : State) (b : Byte) :
    (s.setSt b).faultCause = s.faultCause := rfl
@[simp] theorem State.setSt_rndDraws (s : State) (b : Byte) :
    (s.setSt b).rndDraws = s.rndDraws := rfl
@[simp] theorem State.setSt_schedule (s : State) (b : Byte) :
    (s.setSt b).schedule = s.schedule := rfl

/-! ### State.setMem -/

@[simp] theorem State.setMem_v (s : State) (m : Memory) : (s.setMem m).v = s.v := rfl
@[simp] theorem State.setMem_i (s : State) (m : Memory) : (s.setMem m).i = s.i := rfl
@[simp] theorem State.setMem_pc (s : State) (m : Memory) : (s.setMem m).pc = s.pc := rfl
@[simp] theorem State.setMem_stack (s : State) (m : Memory) : (s.setMem m).stack = s.stack := rfl
@[simp] theorem State.setMem_sp (s : State) (m : Memory) : (s.setMem m).sp = s.sp := rfl
@[simp] theorem State.setMem_dt (s : State) (m : Memory) : (s.setMem m).dt = s.dt := rfl
@[simp] theorem State.setMem_st (s : State) (m : Memory) : (s.setMem m).st = s.st := rfl
@[simp] theorem State.setMem_mem (s : State) (m : Memory) : (s.setMem m).mem = m := rfl
@[simp] theorem State.setMem_fb (s : State) (m : Memory) : (s.setMem m).fb = s.fb := rfl
@[simp] theorem State.setMem_keys (s : State) (m : Memory) : (s.setMem m).keys = s.keys := rfl
@[simp] theorem State.setMem_drawPending (s : State) (m : Memory) :
    (s.setMem m).drawPending = s.drawPending := rfl
@[simp] theorem State.setMem_halted (s : State) (m : Memory) : (s.setMem m).halted = s.halted := rfl
@[simp] theorem State.setMem_faultCause (s : State) (m : Memory) :
    (s.setMem m).faultCause = s.faultCause := rfl
@[simp] theorem State.setMem_rndDraws (s : State) (m : Memory) :
    (s.setMem m).rndDraws = s.rndDraws := rfl
@[simp] theorem State.setMem_schedule (s : State) (m : Memory) :
    (s.setMem m).schedule = s.schedule := rfl

/-! ### State.setDisplay -/

@[simp] theorem State.setDisplay_v (s : State) (d : Display) : (s.setDisplay d).v = s.v := rfl
@[simp] theorem State.setDisplay_i (s : State) (d : Display) : (s.setDisplay d).i = s.i := rfl
@[simp] theorem State.setDisplay_pc (s : State) (d : Display) : (s.setDisplay d).pc = s.pc := rfl
@[simp] theorem State.setDisplay_stack (s : State) (d : Display) :
    (s.setDisplay d).stack = s.stack := rfl
@[simp] theorem State.setDisplay_sp (s : State) (d : Display) : (s.setDisplay d).sp = s.sp := rfl
@[simp] theorem State.setDisplay_dt (s : State) (d : Display) : (s.setDisplay d).dt = s.dt := rfl
@[simp] theorem State.setDisplay_st (s : State) (d : Display) : (s.setDisplay d).st = s.st := rfl
@[simp] theorem State.setDisplay_mem (s : State) (d : Display) : (s.setDisplay d).mem = s.mem := rfl
@[simp] theorem State.setDisplay_fb (s : State) (d : Display) : (s.setDisplay d).fb = d := rfl
@[simp] theorem State.setDisplay_keys (s : State) (d : Display) :
    (s.setDisplay d).keys = s.keys := rfl
@[simp] theorem State.setDisplay_drawPending (s : State) (d : Display) :
    (s.setDisplay d).drawPending = true := rfl
@[simp] theorem State.setDisplay_halted (s : State) (d : Display) :
    (s.setDisplay d).halted = s.halted := rfl
@[simp] theorem State.setDisplay_faultCause (s : State) (d : Display) :
    (s.setDisplay d).faultCause = s.faultCause := rfl
@[simp] theorem State.setDisplay_rndDraws (s : State) (d : Display) :
    (s.setDisplay d).rndDraws = s.rndDraws := rfl
@[simp] theorem State.setDisplay_schedule (s : State) (d : Display) :
    (s.setDisplay d).schedule = s.schedule := rfl

/-! ### State.drawRnd -/

@[simp] theorem State.drawRnd_v (s : State) : (s.drawRnd).v = s.v := rfl
@[simp] theorem State.drawRnd_i (s : State) : (s.drawRnd).i = s.i := rfl
@[simp] theorem State.drawRnd_pc (s : State) : (s.drawRnd).pc = s.pc := rfl
@[simp] theorem State.drawRnd_stack (s : State) : (s.drawRnd).stack = s.stack := rfl
@[simp] theorem State.drawRnd_sp (s : State) : (s.drawRnd).sp = s.sp := rfl
@[simp] theorem State.drawRnd_dt (s : State) : (s.drawRnd).dt = s.dt := rfl
@[simp] theorem State.drawRnd_st (s : State) : (s.drawRnd).st = s.st := rfl
@[simp] theorem State.drawRnd_mem (s : State) : (s.drawRnd).mem = s.mem := rfl
@[simp] theorem State.drawRnd_fb (s : State) : (s.drawRnd).fb = s.fb := rfl
@[simp] theorem State.drawRnd_keys (s : State) : (s.drawRnd).keys = s.keys := rfl
@[simp] theorem State.drawRnd_drawPending (s : State) :
    (s.drawRnd).drawPending = s.drawPending := rfl
@[simp] theorem State.drawRnd_halted (s : State) : (s.drawRnd).halted = s.halted := rfl
@[simp] theorem State.drawRnd_faultCause (s : State) : (s.drawRnd).faultCause = s.faultCause := rfl
@[simp] theorem State.drawRnd_rndDraws (s : State) : (s.drawRnd).rndDraws = s.rndDraws + 1 := rfl
@[simp] theorem State.drawRnd_schedule (s : State) : (s.drawRnd).schedule = s.schedule := rfl

/-! ### State.setSchedule -/

@[simp] theorem State.setSchedule_v (s : State) (es : List Event) :
    (s.setSchedule es).v = s.v := rfl
@[simp] theorem State.setSchedule_i (s : State) (es : List Event) :
    (s.setSchedule es).i = s.i := rfl
@[simp] theorem State.setSchedule_pc (s : State) (es : List Event) :
    (s.setSchedule es).pc = s.pc := rfl
@[simp] theorem State.setSchedule_stack (s : State) (es : List Event) :
    (s.setSchedule es).stack = s.stack := rfl
@[simp] theorem State.setSchedule_sp (s : State) (es : List Event) :
    (s.setSchedule es).sp = s.sp := rfl
@[simp] theorem State.setSchedule_dt (s : State) (es : List Event) :
    (s.setSchedule es).dt = s.dt := rfl
@[simp] theorem State.setSchedule_st (s : State) (es : List Event) :
    (s.setSchedule es).st = s.st := rfl
@[simp] theorem State.setSchedule_mem (s : State) (es : List Event) :
    (s.setSchedule es).mem = s.mem := rfl
@[simp] theorem State.setSchedule_fb (s : State) (es : List Event) :
    (s.setSchedule es).fb = s.fb := rfl
@[simp] theorem State.setSchedule_keys (s : State) (es : List Event) :
    (s.setSchedule es).keys = s.keys := rfl
@[simp] theorem State.setSchedule_drawPending (s : State) (es : List Event) :
    (s.setSchedule es).drawPending = s.drawPending := rfl
@[simp] theorem State.setSchedule_halted (s : State) (es : List Event) :
    (s.setSchedule es).halted = s.halted := rfl
@[simp] theorem State.setSchedule_faultCause (s : State) (es : List Event) :
    (s.setSchedule es).faultCause = s.faultCause := rfl
@[simp] theorem State.setSchedule_rndDraws (s : State) (es : List Event) :
    (s.setSchedule es).rndDraws = s.rndDraws := rfl
@[simp] theorem State.setSchedule_schedule (s : State) (es : List Event) :
    (s.setSchedule es).schedule = es := rfl

/-! ### raise -/

@[simp] theorem raise_v (s : State) (e : Fault) : (raise e s).v = s.v := rfl
@[simp] theorem raise_i (s : State) (e : Fault) : (raise e s).i = s.i := rfl
@[simp] theorem raise_pc (s : State) (e : Fault) : (raise e s).pc = s.pc := rfl
@[simp] theorem raise_stack (s : State) (e : Fault) : (raise e s).stack = s.stack := rfl
@[simp] theorem raise_sp (s : State) (e : Fault) : (raise e s).sp = s.sp := rfl
@[simp] theorem raise_dt (s : State) (e : Fault) : (raise e s).dt = s.dt := rfl
@[simp] theorem raise_st (s : State) (e : Fault) : (raise e s).st = s.st := rfl
@[simp] theorem raise_mem (s : State) (e : Fault) : (raise e s).mem = s.mem := rfl
@[simp] theorem raise_fb (s : State) (e : Fault) : (raise e s).fb = s.fb := rfl
@[simp] theorem raise_keys (s : State) (e : Fault) : (raise e s).keys = s.keys := rfl
@[simp] theorem raise_drawPending (s : State) (e : Fault) :
    (raise e s).drawPending = s.drawPending := rfl
@[simp] theorem raise_halted (s : State) (e : Fault) : (raise e s).halted = true := rfl
@[simp] theorem raise_faultCause (s : State) (e : Fault) : (raise e s).faultCause = e.code := rfl
@[simp] theorem raise_rndDraws (s : State) (e : Fault) : (raise e s).rndDraws = s.rndDraws := rfl
@[simp] theorem raise_schedule (s : State) (e : Fault) : (raise e s).schedule = s.schedule := rfl

/-! ### tick -/

@[simp] theorem tick_v (s : State) : (tick s).v = s.v := rfl
@[simp] theorem tick_i (s : State) : (tick s).i = s.i := rfl
@[simp] theorem tick_pc (s : State) : (tick s).pc = s.pc := rfl
@[simp] theorem tick_stack (s : State) : (tick s).stack = s.stack := rfl
@[simp] theorem tick_sp (s : State) : (tick s).sp = s.sp := rfl
@[simp] theorem tick_dt (s : State) : (tick s).dt = countDown s.dt := rfl
@[simp] theorem tick_st (s : State) : (tick s).st = countDown s.st := rfl
@[simp] theorem tick_mem (s : State) : (tick s).mem = s.mem := rfl
@[simp] theorem tick_fb (s : State) : (tick s).fb = s.fb := rfl
@[simp] theorem tick_keys (s : State) : (tick s).keys = s.keys := rfl
@[simp] theorem tick_drawPending (s : State) : (tick s).drawPending = s.drawPending := rfl
@[simp] theorem tick_halted (s : State) : (tick s).halted = s.halted := rfl
@[simp] theorem tick_faultCause (s : State) : (tick s).faultCause = s.faultCause := rfl
@[simp] theorem tick_rndDraws (s : State) : (tick s).rndDraws = s.rndDraws := rfl
@[simp] theorem tick_schedule (s : State) : (tick s).schedule = s.schedule := rfl

/-! ### setKeys -/

@[simp] theorem setKeys_v (s : State) (k : BitVec 16) : (setKeys k s).v = s.v := rfl
@[simp] theorem setKeys_i (s : State) (k : BitVec 16) : (setKeys k s).i = s.i := rfl
@[simp] theorem setKeys_pc (s : State) (k : BitVec 16) : (setKeys k s).pc = s.pc := rfl
@[simp] theorem setKeys_stack (s : State) (k : BitVec 16) : (setKeys k s).stack = s.stack := rfl
@[simp] theorem setKeys_sp (s : State) (k : BitVec 16) : (setKeys k s).sp = s.sp := rfl
@[simp] theorem setKeys_dt (s : State) (k : BitVec 16) : (setKeys k s).dt = s.dt := rfl
@[simp] theorem setKeys_st (s : State) (k : BitVec 16) : (setKeys k s).st = s.st := rfl
@[simp] theorem setKeys_mem (s : State) (k : BitVec 16) : (setKeys k s).mem = s.mem := rfl
@[simp] theorem setKeys_fb (s : State) (k : BitVec 16) : (setKeys k s).fb = s.fb := rfl
@[simp] theorem setKeys_keys (s : State) (k : BitVec 16) : (setKeys k s).keys = k := rfl
@[simp] theorem setKeys_drawPending (s : State) (k : BitVec 16) :
    (setKeys k s).drawPending = s.drawPending := rfl
@[simp] theorem setKeys_halted (s : State) (k : BitVec 16) : (setKeys k s).halted = s.halted := rfl
@[simp] theorem setKeys_faultCause (s : State) (k : BitVec 16) :
    (setKeys k s).faultCause = s.faultCause := rfl
@[simp] theorem setKeys_rndDraws (s : State) (k : BitVec 16) :
    (setKeys k s).rndDraws = s.rndDraws := rfl
@[simp] theorem setKeys_schedule (s : State) (k : BitVec 16) :
    (setKeys k s).schedule = s.schedule := rfl

/-! ### drawAck -/

@[simp] theorem drawAck_v (s : State) : (drawAck s).v = s.v := rfl
@[simp] theorem drawAck_i (s : State) : (drawAck s).i = s.i := rfl
@[simp] theorem drawAck_pc (s : State) : (drawAck s).pc = s.pc := rfl
@[simp] theorem drawAck_stack (s : State) : (drawAck s).stack = s.stack := rfl
@[simp] theorem drawAck_sp (s : State) : (drawAck s).sp = s.sp := rfl
@[simp] theorem drawAck_dt (s : State) : (drawAck s).dt = s.dt := rfl
@[simp] theorem drawAck_st (s : State) : (drawAck s).st = s.st := rfl
@[simp] theorem drawAck_mem (s : State) : (drawAck s).mem = s.mem := rfl
@[simp] theorem drawAck_fb (s : State) : (drawAck s).fb = s.fb := rfl
@[simp] theorem drawAck_keys (s : State) : (drawAck s).keys = s.keys := rfl
@[simp] theorem drawAck_drawPending (s : State) : (drawAck s).drawPending = false := rfl
@[simp] theorem drawAck_halted (s : State) : (drawAck s).halted = s.halted := rfl
@[simp] theorem drawAck_faultCause (s : State) : (drawAck s).faultCause = s.faultCause := rfl
@[simp] theorem drawAck_rndDraws (s : State) : (drawAck s).rndDraws = s.rndDraws := rfl
@[simp] theorem drawAck_schedule (s : State) : (drawAck s).schedule = s.schedule := rfl

/-! ### Reading a register after an update -/

theorem State.reg_setReg (s : State) (x r : Reg) (b : Byte) :
    (s.setReg x b).reg r = if r = x then b else s.reg r := by
  simp only [State.reg, State.setReg, Fin.getElem_fin, Vector.getElem_set, Fin.ext_iff, eq_comm]

@[simp] theorem State.reg_setReg_self (s : State) (x : Reg) (b : Byte) : (s.setReg x b).reg x = b := by
  simp [State.reg_setReg]

theorem State.reg_setRegFlag (s : State) (x r : Reg) (a f : Byte) :
    (s.setRegFlag x a f).reg r = if r = VF then f else if r = x then a else s.reg r := by
  simp [State.setRegFlag, State.reg_setReg]

theorem State.reg_setRegsUpTo (s : State) (x r : Reg) (f : Nat → Byte) :
    (s.setRegsUpTo x f).reg r = if r ≤ x then f r.val else s.reg r := by
  simp [State.reg, State.setRegsUpTo]

@[simp] theorem State.setI_reg (s : State) (w : Word) (r : Reg) : (s.setI w).reg r = s.reg r := rfl
@[simp] theorem State.setPc_reg (s : State) (w : Word) (r : Reg) : (s.setPc w).reg r = s.reg r := rfl
@[simp] theorem State.advancePc_reg (s : State) (r : Reg) : (s.advancePc).reg r = s.reg r := rfl
@[simp] theorem State.retreatPc_reg (s : State) (r : Reg) : (s.retreatPc).reg r = s.reg r := rfl
@[simp] theorem State.setDt_reg (s : State) (b : Byte) (r : Reg) : (s.setDt b).reg r = s.reg r := rfl
@[simp] theorem State.setSt_reg (s : State) (b : Byte) (r : Reg) : (s.setSt b).reg r = s.reg r := rfl
@[simp] theorem State.setMem_reg (s : State) (m : Memory) (r : Reg) : (s.setMem m).reg r = s.reg r := rfl
@[simp] theorem State.setDisplay_reg (s : State) (d : Display) (r : Reg) : (s.setDisplay d).reg r = s.reg r := rfl
@[simp] theorem State.drawRnd_reg (s : State) (r : Reg) : (s.drawRnd).reg r = s.reg r := rfl
@[simp] theorem State.setSchedule_reg (s : State) (es : List Event) (r : Reg) : (s.setSchedule es).reg r = s.reg r := rfl
@[simp] theorem raise_reg (s : State) (e : Fault) (r : Reg) : (raise e s).reg r = s.reg r := rfl
@[simp] theorem tick_reg (s : State) (r : Reg) : (tick s).reg r = s.reg r := rfl
@[simp] theorem setKeys_reg (s : State) (k : BitVec 16) (r : Reg) : (setKeys k s).reg r = s.reg r := rfl
@[simp] theorem drawAck_reg (s : State) (r : Reg) : (drawAck s).reg r = s.reg r := rfl

/-! ### Skips -/

theorem State.skipIf_pc (s : State) (c : Bool) :
    (s.skipIf c).pc = if c then s.pc + 2 else s.pc := by
  cases c <;> rfl

/-- A skip moves nothing but `pc`. -/
theorem State.skipIf_eq (s : State) (c : Bool) :
    s.skipIf c = s.setPc (if c then s.pc + 2 else s.pc) := by
  cases c <;> rfl

/-! ### Push and pop -/

/-- Push and pop, each said once: what they answer, and when they answer nothing. -/
theorem State.push_of_lt (s : State) (w : Word) (h : s.sp.val < 16) :
    s.push w = some { s with stack := s.stack.set s.sp.val w h,
                             sp := ⟨s.sp.val + 1, Nat.succ_lt_succ h⟩ } := by
  simp only [State.push, h, dite_true]

theorem State.push_eq_none (s : State) (w : Word) :
    s.push w = none ↔ s.sp.val = 16 := by
  have h17 : s.sp.val < 17 := s.sp.isLt
  by_cases h : s.sp.val < 16
  · rw [State.push_of_lt s w h]
    simp
    omega
  · have h' : ¬ s.sp.val < Config.stackDepth := h
    simp only [State.push, h', dite_false, true_iff]
    omega

theorem State.pop_eq_none (s : State) : s.pop = none ↔ s.sp.val = 0 := by
  unfold State.pop
  split
  · next h => simp [h]
  · next h => simp [h]

theorem State.pop_of_succ (s : State) (k : Nat) (h : s.sp.val = k + 1) (hk : k < 16) :
    s.pop = some (s.stack[k], { s with sp := ⟨k, Nat.lt_succ_of_lt hk⟩ }) := by
  unfold State.pop
  split
  · next h' => simp [h'] at h
  · next j hj h' =>
    have : j = k := by simp [h'] at h; exact h
    subst this; rfl

/-! ### Frames -/

theorem Part.same_refl (p : Part) (s : State) : p.same s s := by cases p <;> simp [Part.same]

theorem Part.same_symm (p : Part) (s t : State) (h : p.same s t) : p.same t s := by
  cases p <;> simp_all [Part.same]

theorem Part.same_trans (p : Part) (s t u : State) (h : p.same s t) (h' : p.same t u) :
    p.same s u := by
  cases p <;> simp_all [Part.same]

theorem Frame.refl (l : List Part) (s : State) : Frame l s s := fun p _ => p.same_refl s

theorem Frame.trans {l : List Part} {s t u : State} (h : Frame l s t) (h' : Frame l t u) :
    Frame l s u := fun p hp => p.same_trans s t u (h p hp) (h' p hp)

theorem Frame.mono {l l' : List Part} {s t : State} (h : Frame l s t) (hl : ∀ p ∈ l, p ∈ l') :
    Frame l' s t := fun p hp => h p fun hm => hp (hl p hm)

end Sys2Proof.Machine
end

