-- ==== Sys2Proof/Laws/Memory.lean ====
section
/-! SUPPORT. The laws of memory: a read after a write, on every list of cells, and that every memory
operation keeps the canonical form. -/

namespace Sys2Proof.Machine

theorem Memory.read_erase_self (m : Memory) (a : Nat) : (m.erase a).read a = Memory.unlisted a := by
  induction m with
  | nil => rfl
  | cons c rest ih =>
    by_cases h : c.1 = a
    · simpa [Memory.erase, h] using ih
    · simpa [Memory.erase, h, Memory.read, Ne.symm h] using ih

theorem Memory.read_erase_other (m : Memory) {a b : Nat} (h : b ≠ a) :
    (m.erase a).read b = m.read b := by
  induction m with
  | nil => rfl
  | cons c rest ih =>
    by_cases hc : c.1 = a
    · have : ¬ b = c.1 := by omega
      simpa [Memory.erase, hc, Memory.read, this, h] using ih
    · by_cases hb : b = c.1
      · simp [Memory.erase, hc, Memory.read, hb]
      · simpa [Memory.erase, hc, Memory.read, hb] using ih

theorem Memory.read_insert_other (m : Memory) {a b : Nat} (w : Byte) (h : b ≠ a) :
    (m.insert a w).read b = m.read b := by
  induction m with
  | nil => simp [Memory.insert, Memory.read, h]
  | cons c rest ih =>
    by_cases hc : a < c.1
    · simp [Memory.insert, Memory.read, hc, h]
    · by_cases hb : b = c.1
      · simp [Memory.insert, Memory.read, hb, hc]
      · simpa [Memory.insert, Memory.read, hb, hc] using ih

/-- The inserted byte is read back where `a` was not listed. -/
theorem Memory.read_insert_self (m : Memory) (a : Nat) (w : Byte) (h : ∀ c ∈ m, c.1 ≠ a) :
    (m.insert a w).read a = w := by
  induction m with
  | nil => simp [Memory.insert, Memory.read]
  | cons c rest ih =>
    have hc := h c (by simp)
    by_cases hlt : a < c.1
    · simp [Memory.insert, Memory.read, hlt]
    · simpa [Memory.insert, Memory.read, hlt, Ne.symm hc] using
        ih fun d hd => h d (by simp [hd])

/-- A READ AFTER A WRITE: the byte written at its address, every other byte as before. -/
theorem Memory.read_write (m : Memory) (a b : Nat) (w : Byte) :
    (m.write a w).read b = if b = a then w else m.read b := by
  unfold Memory.write
  by_cases hb : b = a
  · subst hb
    split
    · next hw => simp [Memory.read_erase_self, hw]
    · simp only [if_true]
      exact Memory.read_insert_self _ _ _ (by simp [Memory.erase])
  · split <;> simp [hb, Memory.read_insert_other, Memory.read_erase_other]

/-- A read after a write of consecutive bytes. -/
theorem Memory.read_writeBytes (bytes : List Byte) (m : Memory) (a b : Nat) :
    (m.writeBytes a bytes).read b =
      if a ≤ b ∧ b < a + bytes.length then bytes.getD (b - a) 0 else m.read b := by
  induction bytes generalizing m a with
  | nil =>
    simp [Memory.writeBytes]
  | cons w rest ih =>
    simp only [Memory.writeBytes, ih, Memory.read_write, List.length_cons]
    by_cases h1 : a + 1 ≤ b ∧ b < a + 1 + rest.length
    · have h2 : a ≤ b ∧ b < a + (rest.length + 1) := by omega
      obtain ⟨k, hk⟩ : ∃ k, b - a = k + 1 := ⟨b - a - 1, by omega⟩
      have hk' : b - (a + 1) = k := by omega
      simp only [h1, h2, and_self, if_true, hk, hk', List.getD_cons_succ]
    · by_cases h3 : b = a
      · subst h3; simp
      · have h2 : ¬ (a ≤ b ∧ b < a + (rest.length + 1)) := by omega
        simp only [h1, h2, h3, if_false]

@[simp] theorem Memory.length_readBytes (m : Memory) (a n : Nat) : (m.readBytes a n).length = n := by
  simp [Memory.readBytes]

theorem Memory.getD_readBytes (m : Memory) (a n k : Nat) (h : k < n) :
    (m.readBytes a n).getD k 0 = m.read (a + k) := by
  simp [Memory.readBytes, List.getD, h]

/-! ### The canonical form -/

theorem Memory.rising_of_le {m : Memory} {low low' : Nat} (h : Memory.rising low m = true)
    (hl : low' ≤ low) : Memory.rising low' m = true := by
  cases m with
  | nil => rfl
  | cons c rest => simp [Memory.rising] at h ⊢; exact ⟨by omega, h.2⟩

theorem Memory.rising_erase (m : Memory) (a low : Nat) (h : Memory.rising low m = true) :
    Memory.rising low (m.erase a) = true := by
  induction m generalizing low with
  | nil => rfl
  | cons c rest ih =>
    simp [Memory.rising] at h
    by_cases hc : c.1 = a
    · have : Memory.erase (c :: rest) a = Memory.erase rest a := by simp [Memory.erase, hc]
      rw [this]
      exact Memory.rising_of_le (ih _ h.2) (by omega)
    · have : Memory.erase (c :: rest) a = c :: Memory.erase rest a := by simp [Memory.erase, hc]
      rw [this]
      simp [Memory.rising, h.1, ih _ h.2]

theorem Memory.rising_insert (m : Memory) (a low : Nat) (w : Byte)
    (h : Memory.rising low m = true) (hl : low ≤ a) (hn : ∀ c ∈ m, c.1 ≠ a) :
    Memory.rising low (m.insert a w) = true := by
  induction m generalizing low with
  | nil => simp [Memory.insert, Memory.rising, hl]
  | cons c rest ih =>
    have hc := hn c (by simp)
    simp [Memory.rising] at h
    by_cases hlt : a < c.1
    · simp [Memory.insert, hlt, Memory.rising, hl, h.2]
    · simp [Memory.insert, hlt, Memory.rising, h.1]
      exact ih _ h.2 (by omega) fun d hd => hn d (by simp [hd])

theorem Memory.mem_insert {m : Memory} {a : Nat} {w : Byte} {c : Host.Cell}
    (h : c ∈ m.insert a w) : c = (a, w) ∨ c ∈ m := by
  induction m with
  | nil => simpa [Memory.insert] using h
  | cons d rest ih =>
    by_cases hlt : a < d.1
    · simpa [Memory.insert, hlt] using h
    · simp [Memory.insert, hlt] at h
      rcases h with h | h
      · simp [h]
      · rcases ih h with h | h <;> simp [h]

/-- A write at a valid address keeps the canonical form. -/
theorem Memory.wf_write (m : Memory) (a : Nat) (w : Byte) (h : m.wf = true)
    (ha : Memory.valid a = true) : (m.write a w).wf = true := by
  simp only [Memory.wf, Bool.and_eq_true, List.all_eq_true] at h ⊢
  have hmem : ∀ c ∈ m.erase a, c ∈ m ∧ c.1 ≠ a := fun c hc => by
    simpa [Memory.erase] using hc
  have hr := Memory.rising_erase m a 0 h.1
  unfold Memory.write
  split
  · exact ⟨hr, fun c hc => h.2 c (hmem c hc).1⟩
  · next hw =>
    refine ⟨Memory.rising_insert _ _ _ _ hr (Nat.zero_le _) fun c hc => (hmem c hc).2, ?_⟩
    intro c hc
    rcases Memory.mem_insert hc with rfl | hc
    · simp [ha, hw]
    · exact h.2 c (hmem c hc).1

/-- A write of consecutive bytes at valid addresses keeps the canonical form. -/
theorem Memory.wf_writeBytes (bytes : List Byte) (m : Memory) (a : Nat) (h : m.wf = true)
    (ha : a + bytes.length ≤ 0x1000) : (m.writeBytes a bytes).wf = true := by
  induction bytes generalizing m a with
  | nil => exact h
  | cons w rest ih =>
    simp only [List.length_cons] at ha
    exact ih _ _ (Memory.wf_write m a w h (by simp [Memory.valid]; omega)) (by omega)

/-- Memory after reset is in canonical form. -/
theorem Memory.wf_reset : Memory.wf State.reset.mem = true := rfl

end Sys2Proof.Machine
end

