-- ==== Sys2Proof/Laws/Display.lean ====
section
/-! SUPPORT. The laws of the display and of the sprite blitter: a pixel after a flip, after a run of
sprite columns, and which pixels a sprite row falls on. -/

namespace Sys2Proof.Machine

theorem rowOf_eq_iff {i j : Nat} (hi : i < 2048) (hj : j < 2048) :
    rowOf i = rowOf j ↔ i / 64 = j / 64 := by
  simp only [rowOf, Fin.ext_iff, Fin.val_ofNat, Config.rows, Config.columns]
  omega

/-- A PIXEL AFTER A FLIP: the flipped one is inverted, every other one is as before. -/
theorem Display.pixel_flip (d : Display) {i j : Nat} (hi : i < 2048) (hj : j < 2048) :
    (d.flip i).pixel j = (d.pixel j ^^ decide (j = i)) := by
  unfold Display.pixel Display.flip
  have hc : columnOf i < 64 := Nat.mod_lt _ (by decide)
  by_cases hr : rowOf i = rowOf j
  · have h := (rowOf_eq_iff hi hj).1 hr
    have : (columnOf i = columnOf j) ↔ (j = i) := by simp only [columnOf, Config.columns]; omega
    simp [hr, BitVec.getLsbD_twoPow, hc, this]
  · have h : ¬ i / 64 = j / 64 := fun h => hr ((rowOf_eq_iff hi hj).2 h)
    have : ¬ j = i := by rintro rfl; exact h rfl
    have hv : ¬ (rowOf i).val = (rowOf j).val := fun h => hr (Fin.ext h)
    simp [this, hv]

@[simp] theorem Display.pixel_clear (idx : Nat) : Display.clear.pixel idx = false := by
  simp [Display.pixel, Display.clear]

theorem pixelIndex_lt (x0 y0 r c : Nat) : pixelIndex x0 y0 r c < 2048 := by
  simp only [pixelIndex, Config.rows, Config.columns]; omega

/-- The pixel at (`px`, `py`) is under column `c` of row `r` exactly when both distances agree around the
edges. -/
theorem pixelIndex_eq_iff (x0 y0 r c px py : Nat) (hx : px < 64) :
    py * 64 + px = pixelIndex x0 y0 r c ↔ (y0 + r) % 32 = py ∧ (x0 + c) % 64 = px := by
  simp only [pixelIndex, Config.rows, Config.columns]; omega

/-- Whether a run of `k` columns of a sprite row, from column `c` on, has a bit on pixel `j`. -/
def hitColumns (x0 y0 r : Nat) (row : Byte) (c k j : Nat) : Bool :=
  match k with
  | 0 => false
  | k + 1 => (spriteBit row c && decide (j = pixelIndex x0 y0 r c)) ||
      hitColumns x0 y0 r row (c + 1) k j

/-- Whether the sprite rows from row `r` on have a bit on pixel `j`. -/
def hitRows (x0 y0 r : Nat) (rows : List Byte) (j : Nat) : Bool :=
  match rows with
  | [] => false
  | row :: rest => hitColumns x0 y0 r row 0 8 j || hitRows x0 y0 (r + 1) rest j

theorem hitColumns_iff (x0 y0 r : Nat) (row : Byte) (c k j : Nat) :
    hitColumns x0 y0 r row c k j = true ↔
      ∃ c', c ≤ c' ∧ c' < c + k ∧ spriteBit row c' = true ∧ j = pixelIndex x0 y0 r c' := by
  induction k generalizing c with
  | zero => simp [hitColumns]; omega
  | succ k ih =>
    simp only [hitColumns, Bool.or_eq_true, Bool.and_eq_true, decide_eq_true_eq, ih]
    constructor
    · rintro (⟨h1, h2⟩ | ⟨c', h1, h2, h3⟩)
      · exact ⟨c, by omega, by omega, h1, h2⟩
      · exact ⟨c', by omega, by omega, h3⟩
    · rintro ⟨c', h1, h2, h3, h4⟩
      by_cases h : c' = c
      · subst h; exact .inl ⟨h3, h4⟩
      · exact .inr ⟨c', by omega, by omega, h3, h4⟩

theorem hitRows_iff (x0 y0 r : Nat) (rows : List Byte) (j : Nat) :
    hitRows x0 y0 r rows j = true ↔
      ∃ k, k < rows.length ∧ hitColumns x0 y0 (r + k) (rows.getD k 0) 0 8 j = true := by
  induction rows generalizing r with
  | nil => simp [hitRows]
  | cons row rest ih =>
    simp only [hitRows, Bool.or_eq_true, ih, List.length_cons]
    constructor
    · rintro (h | ⟨k, hk, h⟩)
      · exact ⟨0, by omega, by simpa using h⟩
      · exact ⟨k + 1, by omega, by simpa [Nat.add_assoc, Nat.add_comm 1] using h⟩
    · rintro ⟨k, hk, h⟩
      cases k with
      | zero => exact .inl (by simpa using h)
      | succ k => exact .inr ⟨k, by omega, by simpa [Nat.add_assoc, Nat.add_comm 1] using h⟩

/-- A run of at most 64 columns flips each pixel it hits once, and notes a collision exactly when one of
them was on. -/
theorem blitColumns_spec (x0 y0 r : Nat) (row : Byte) (c k : Nat) (p : Display × Bool)
    (hk : k ≤ 64) :
    (∀ j, j < 2048 → (blitColumns x0 y0 r row c k p).1.pixel j =
      (p.1.pixel j ^^ hitColumns x0 y0 r row c k j)) ∧
    ((blitColumns x0 y0 r row c k p).2 = true ↔
      p.2 = true ∨ ∃ j, j < 2048 ∧ p.1.pixel j = true ∧ hitColumns x0 y0 r row c k j = true) := by
  induction k generalizing c p with
  | zero => simp [blitColumns, hitColumns]
  | succ k ih =>
    obtain ⟨ih1, ih2⟩ := ih (c + 1)
      (if spriteBit row c then plot (pixelIndex x0 y0 r c) p else p) (by omega)
    have hfresh : hitColumns x0 y0 r row (c + 1) k (pixelIndex x0 y0 r c) = false := by
      rw [Bool.eq_false_iff]
      intro h
      obtain ⟨c', h1, h2, -, h4⟩ := (hitColumns_iff ..).1 h
      simp only [pixelIndex, Config.rows, Config.columns] at h4
      omega
    have hlt := pixelIndex_lt x0 y0 r c
    simp only [blitColumns]
    by_cases hb : spriteBit row c = true
    · simp only [hb, if_true, plot] at ih1 ih2 ⊢
      refine ⟨fun j hj => ?_, ?_⟩
      · rw [ih1 j hj, Display.pixel_flip _ hlt hj]
        by_cases hj' : j = pixelIndex x0 y0 r c
        · subst hj'; simp [hitColumns, hb, hfresh]
        · simp [hitColumns, hb, hj']
      · rw [ih2]
        constructor
        · rintro (h | ⟨j, hj, h1, h2⟩)
          · simp only [Bool.or_eq_true] at h
            rcases h with h | h
            · exact .inl h
            · exact .inr ⟨_, hlt, h, by simp [hitColumns, hb]⟩
          · have hne : j ≠ pixelIndex x0 y0 r c := by rintro rfl; simp [hfresh] at h2
            rw [Display.pixel_flip _ hlt hj] at h1
            exact .inr ⟨j, hj, by simpa [hne] using h1, by simp [hitColumns, h2]⟩
        · rintro (h | ⟨j, hj, h1, h2⟩)
          · exact .inl (by simp [h])
          · by_cases hne : j = pixelIndex x0 y0 r c
            · subst hne; exact .inl (by simp [h1])
            · refine .inr ⟨j, hj, ?_, by simpa [hitColumns, hne] using h2⟩
              rw [Display.pixel_flip _ hlt hj]; simp [h1, hne]
    · simp only [hb, hitColumns, Bool.false_and, Bool.false_or] at ih1 ih2 ⊢
      exact ⟨ih1, ih2⟩

/-- The same for at most 32 sprite rows. -/
theorem blitRows_spec (x0 y0 r : Nat) (rows : List Byte) (p : Display × Bool)
    (hk : rows.length ≤ 32) :
    (∀ j, j < 2048 → (blitRows x0 y0 r rows p).1.pixel j =
      (p.1.pixel j ^^ hitRows x0 y0 r rows j)) ∧
    ((blitRows x0 y0 r rows p).2 = true ↔
      p.2 = true ∨ ∃ j, j < 2048 ∧ p.1.pixel j = true ∧ hitRows x0 y0 r rows j = true) := by
  induction rows generalizing r p with
  | nil => simp [blitRows, hitRows]
  | cons row rest ih =>
    simp only [List.length_cons] at hk
    obtain ⟨ih1, ih2⟩ := ih (r + 1) (blitColumns x0 y0 r row 0 8 p) (by omega)
    obtain ⟨c1, c2⟩ := blitColumns_spec x0 y0 r row 0 8 p (by omega)
    have hfresh : ∀ j, hitColumns x0 y0 r row 0 8 j = true →
        hitRows x0 y0 (r + 1) rest j = false := by
      intro j hj
      rw [Bool.eq_false_iff]
      intro h
      obtain ⟨c', -, -, -, h4⟩ := (hitColumns_iff ..).1 hj
      obtain ⟨k, hk', h⟩ := (hitRows_iff ..).1 h
      obtain ⟨c'', -, -, -, h5⟩ := (hitColumns_iff ..).1 h
      simp only [pixelIndex, Config.rows, Config.columns] at h4 h5
      omega
    simp only [blitRows]
    refine ⟨fun j hj => ?_, ?_⟩
    · rw [ih1 j hj, c1 j hj]
      by_cases h : hitColumns x0 y0 r row 0 8 j = true
      · simp [hitRows, h, hfresh j h]
      · simp [hitRows, h]
    · rw [ih2, c2]
      constructor
      · rintro ((h | ⟨j, hj, h1, h2⟩) | ⟨j, hj, h1, h2⟩)
        · exact .inl h
        · exact .inr ⟨j, hj, h1, by simp [hitRows, h2]⟩
        · have hn : hitColumns x0 y0 r row 0 8 j = false := by
            rw [Bool.eq_false_iff]; intro h; simp [hfresh j h] at h2
          exact .inr ⟨j, hj, by simpa [c1 j hj, hn] using h1, by simp [hitRows, h2]⟩
      · rintro (h | ⟨j, hj, h1, h2⟩)
        · exact .inl (.inl h)
        · simp only [hitRows, Bool.or_eq_true] at h2
          rcases h2 with h2 | h2
          · exact .inl (.inr ⟨j, hj, h1, h2⟩)
          · have hn : hitColumns x0 y0 r row 0 8 j = false := by
              rw [Bool.eq_false_iff]; intro h; simp [hfresh j h] at h2
            exact .inr ⟨j, hj, by simp [c1 j hj, hn, h1], h2⟩

/-- What a sprite hits, in closed form: the loops of R172 and `covers` say the same. -/
theorem hitRows_eq_covers (x0 y0 : Nat) (rows : List Byte) (px py : Nat) (hx0 : x0 ≤ 255)
    (hy0 : y0 ≤ 255) (hx : px < 64) (hy : py < 32) (hn : rows.length ≤ 32) :
    hitRows x0 y0 0 rows (py * 64 + px) = covers x0 y0 rows px py := by
  rw [Bool.eq_iff_iff, hitRows_iff]
  simp only [covers, Bool.and_eq_true, decide_eq_true_eq]
  constructor
  · rintro ⟨k, hk, h⟩
    obtain ⟨c, -, hc, hb, hj⟩ := (hitColumns_iff ..).1 h
    obtain ⟨h1, h2⟩ := (pixelIndex_eq_iff _ _ _ _ _ _ hx).1 hj
    have hr : (py + 256 - y0) % 32 = k := by omega
    have hc' : (px + 256 - x0) % 64 = c := by omega
    rw [hr, hc']
    exact ⟨by omega, hb⟩
  · rintro ⟨hc, hb⟩
    have hlt : (py + 256 - y0) % 32 < rows.length := by
      by_contra hge
      rw [List.getD_eq_default _ _ (by omega)] at hb
      simp at hb
    refine ⟨_, hlt, (hitColumns_iff ..).2 ⟨_, Nat.zero_le _, by omega, hb, ?_⟩⟩
    exact (pixelIndex_eq_iff _ _ _ _ _ _ hx).2 ⟨by omega, by omega⟩

end Sys2Proof.Machine
end

