-- ==== Sys2Proof/Laws/Exec.lean ====
section
/-! SUPPORT. What the shared operations and the instructions with more than one outcome can do, each said
once: cite these instead of unfolding the meanings. Every other meaning is one `.next` of named updates,
by rfl. -/

namespace Sys2Proof.Machine

/-! ### Shared operations -/

theorem Memory.valid_iff (a : Nat) : Memory.valid a = true ↔ a ≤ 0xFFF := by simp [Memory.valid]

theorem State.push_eq_some {s s' : State} {w : Word} (h : s.push w = some s') :
    ∃ hlt : s.sp.val < 16,
      s' = { s with stack := s.stack.set s.sp.val w hlt,
                    sp := ⟨s.sp.val + 1, Nat.succ_lt_succ hlt⟩ } := by
  by_cases hlt : s.sp.val < 16
  · rw [State.push_of_lt s w hlt] at h
    cases h
    exact ⟨hlt, rfl⟩
  · have : s.sp.val < 17 := s.sp.isLt
    rw [(State.push_eq_none s w).2 (by omega)] at h
    cases h

theorem State.pop_eq_some {s s' : State} {w : Word} (h : s.pop = some (w, s')) :
    ∃ (k : Nat) (hk : k < 16), s.sp.val = k + 1 ∧ w = s.stack[k] ∧
      s' = { s with sp := ⟨k, Nat.lt_succ_of_lt hk⟩ } := by
  by_cases h0 : s.sp.val = 0
  · rw [(State.pop_eq_none s).2 h0] at h
    cases h
  · have : s.sp.val < 17 := s.sp.isLt
    have hk : s.sp.val - 1 < 16 := by omega
    rw [State.pop_of_succ s (s.sp.val - 1) (by omega) hk] at h
    cases h
    exact ⟨_, hk, by omega, rfl, rfl⟩

/-- Fault entry changes the fault state and nothing else (R205). -/
theorem raise_frame (f : Fault) (s : State) : Frame [.fault] s (raise f s) := by
  intro p hp
  cases p <;> simp_all [Part.same]

theorem flagByte_toNat (b : Bool) : (flagByte b).toNat = if b then 1 else 0 := by cases b <;> rfl

theorem countDown_toNat (b : Byte) : (countDown b).toNat = b.toNat - 1 := by
  unfold countDown
  split
  · have := b.isLt
    rw [BitVec.toNat_sub]
    simp
    omega
  · omega

theorem mask12_toNat (w : Word) : (mask12 w).toNat = w.toNat % 4096 := by
  have h : (4095 : Nat) = 2 ^ 12 - 1 := rfl
  simp only [mask12, BitVec.toNat_and]
  exact (congrArg _ h).trans (Nat.and_two_pow_sub_one_eq_mod _ 12)

theorem zext16_toNat (nnn : Addr12) : (zext16 nnn).toNat = nnn.toNat := by
  simp only [zext16, BitVec.truncate_eq_setWidth, BitVec.toNat_setWidth]
  omega

theorem byteToWord_toNat (b : Byte) : (byteToWord b).toNat = b.toNat := by
  simp only [byteToWord, BitVec.truncate_eq_setWidth, BitVec.toNat_setWidth]
  omega

theorem byteToWord_mul_five_toNat (b : Byte) : (byteToWord b * 5).toNat = b.toNat * 5 := by
  have h : (5 : Word).toNat = 5 := rfl
  rw [BitVec.toNat_mul, byteToWord_toNat, h]
  omega

@[simp] theorem length_bcdDigits (b : Byte) : (bcdDigits b).length = 3 := rfl

@[simp] theorem length_regsUpTo (s : State) (x : Reg) : (regsUpTo s x).length = x.val + 1 := by
  simp [regsUpTo]

theorem getD_regsUpTo (s : State) {x r : Reg} (h : r ≤ x) : (regsUpTo s x).getD r.val 0 = s.reg r := by
  have : r.val < x.val + 1 := Nat.lt_succ_of_le h
  simp [regsUpTo, List.getD, State.reg, this]

@[simp] theorem length_spriteRows (s : State) (n : Nat) : (spriteRows s n).length = n := by
  simp [spriteRows]

theorem spriteInBounds_iff (s : State) (n : Nat) :
    spriteInBounds s n = true ↔ (n ≥ 1 → effAddr s (n - 1) ≤ 0xFFF) := by
  simp only [spriteInBounds, Bool.or_eq_true, decide_eq_true_eq, Memory.valid_iff]
  omega

theorem firstKeyDown_eq_some {keys : BitVec 16} {k n m : Nat} (h1 : k ≤ m) (h2 : m < k + n)
    (hm : keyDown keys m = true) (hlow : ∀ j, j < m → keyDown keys j = false) :
    firstKeyDown keys k n = some m := by
  induction n generalizing k with
  | zero => omega
  | succ n ih =>
    by_cases e : k = m
    · subst e; simp [firstKeyDown, hm]
    · simp only [firstKeyDown, hlow k (by omega)]
      exact ih (by omega) (by omega)

theorem firstKeyDown_eq_none {keys : BitVec 16} {k n : Nat}
    (h : ∀ j, k ≤ j → j < k + n → keyDown keys j = false) : firstKeyDown keys k n = none := by
  induction n generalizing k with
  | zero => rfl
  | succ n ih =>
    simp only [firstKeyDown, h k (by omega) (by omega)]
    exact ih fun j h1 h2 => h j (by omega) (by omega)

/-- The key that is found is one of the 16. -/
theorem firstKeyDown_lt {keys : BitVec 16} {k n m : Nat} (h : firstKeyDown keys k n = some m) :
    m < k + n := by
  induction n generalizing k with
  | zero => simp [firstKeyDown] at h
  | succ n ih =>
    simp only [firstKeyDown] at h
    split at h
    · cases h; omega
    · have := ih h; omega

/-! ### Instructions with more than one outcome: the cases of what they answer -/

theorem exec_call_cases {nnn : Addr12} {s t : State} (h : exec (.call nnn) s = .next t) :
    (∃ hlt : s.sp.val < 16,
      t = State.setPc { s with stack := s.stack.set s.sp.val s.pc hlt,
                               sp := ⟨s.sp.val + 1, Nat.succ_lt_succ hlt⟩ } (zext16 nnn)) ∨
    (s.sp.val = 16 ∧ t = raise .stackOverflow s) := by
  simp only [exec, execCall, takeFault] at h
  split at h
  · next hp =>
    cases h
    obtain ⟨hlt, rfl⟩ := State.push_eq_some hp
    exact .inl ⟨hlt, rfl⟩
  · next hp => cases h; exact .inr ⟨(State.push_eq_none _ _).1 hp, rfl⟩

theorem exec_ret_cases {s t : State} (h : exec .ret s = .next t) :
    (∃ (k : Nat) (hk : k < 16), s.sp.val = k + 1 ∧
      t = State.setPc { s with sp := ⟨k, Nat.lt_succ_of_lt hk⟩ } s.stack[k]) ∨
    (s.sp.val = 0 ∧ t = raise .stackUnderflow s) := by
  simp only [exec, execRet, takeFault] at h
  split at h
  · next hp =>
    cases h
    obtain ⟨k, hk, h1, rfl, rfl⟩ := State.pop_eq_some hp
    exact .inl ⟨k, hk, h1, rfl⟩
  · next hp => cases h; exact .inr ⟨(State.pop_eq_none _).1 hp, rfl⟩

theorem exec_ldB_cases {x : Reg} {s t : State} (h : exec (.ldB x) s = .next t) :
    (effAddr s 2 ≤ 0xFFF ∧ t = s.setMem (s.mem.writeBytes (effAddr s 0) (bcdDigits (s.reg x)))) ∨
    (effAddr s 2 > 0xFFF ∧ t = raise .outOfBounds s) := by
  simp only [exec, execLdB, takeFault] at h
  split at h <;> rename_i hv <;> cases h <;> rw [Memory.valid_iff] at hv
  · exact .inl ⟨hv, rfl⟩
  · exact .inr ⟨by omega, rfl⟩

theorem exec_dump_cases {x : Reg} {s t : State} (h : exec (.dump x) s = .next t) :
    (effAddr s x.val ≤ 0xFFF ∧ t = s.setMem (s.mem.writeBytes (effAddr s 0) (regsUpTo s x))) ∨
    (effAddr s x.val > 0xFFF ∧ t = raise .outOfBounds s) := by
  simp only [exec, execDump, takeFault] at h
  split at h <;> rename_i hv <;> cases h <;> rw [Memory.valid_iff] at hv
  · exact .inl ⟨hv, rfl⟩
  · exact .inr ⟨by omega, rfl⟩

theorem exec_load_cases {x : Reg} {s t : State} (h : exec (.load x) s = .next t) :
    (effAddr s x.val ≤ 0xFFF ∧ t = s.setRegsUpTo x fun k => s.mem.read (effAddr s k)) ∨
    (effAddr s x.val > 0xFFF ∧ t = raise .outOfBounds s) := by
  simp only [exec, execLoad, takeFault] at h
  split at h <;> rename_i hv <;> cases h <;> rw [Memory.valid_iff] at hv
  · exact .inl ⟨hv, rfl⟩
  · exact .inr ⟨by omega, rfl⟩

/-- What a completed `Dxyn` leaves. -/
def drawn (x y : Reg) (n : Nibble) (s : State) : State :=
  (s.setDisplay (blit (s.reg x).toNat (s.reg y).toNat (spriteRows s n.toNat) s.fb).1).setReg VF
    (flagByte (blit (s.reg x).toNat (s.reg y).toNat (spriteRows s n.toNat) s.fb).2)

@[simp] theorem drawn_i (x y : Reg) (n : Nibble) (s : State) : (drawn x y n s).i = s.i := rfl

@[simp] theorem drawn_pc (x y : Reg) (n : Nibble) (s : State) : (drawn x y n s).pc = s.pc := rfl

@[simp] theorem drawn_stack (x y : Reg) (n : Nibble) (s : State) : (drawn x y n s).stack = s.stack := rfl

@[simp] theorem drawn_sp (x y : Reg) (n : Nibble) (s : State) : (drawn x y n s).sp = s.sp := rfl

@[simp] theorem drawn_dt (x y : Reg) (n : Nibble) (s : State) : (drawn x y n s).dt = s.dt := rfl

@[simp] theorem drawn_st (x y : Reg) (n : Nibble) (s : State) : (drawn x y n s).st = s.st := rfl

@[simp] theorem drawn_mem (x y : Reg) (n : Nibble) (s : State) : (drawn x y n s).mem = s.mem := rfl

@[simp] theorem drawn_keys (x y : Reg) (n : Nibble) (s : State) : (drawn x y n s).keys = s.keys := rfl

@[simp] theorem drawn_halted (x y : Reg) (n : Nibble) (s : State) : (drawn x y n s).halted = s.halted := rfl

@[simp] theorem drawn_faultCause (x y : Reg) (n : Nibble) (s : State) : (drawn x y n s).faultCause = s.faultCause := rfl

@[simp] theorem drawn_rndDraws (x y : Reg) (n : Nibble) (s : State) : (drawn x y n s).rndDraws = s.rndDraws := rfl

@[simp] theorem drawn_schedule (x y : Reg) (n : Nibble) (s : State) : (drawn x y n s).schedule = s.schedule := rfl

@[simp] theorem drawn_drawPending (x y : Reg) (n : Nibble) (s : State) :
    (drawn x y n s).drawPending = true := rfl

theorem exec_drw_cases {x y : Reg} {n : Nibble} {s t : State} (h : exec (.drw x y n) s = .next t) :
    ((n.toNat ≥ 1 → effAddr s (n.toNat - 1) ≤ 0xFFF) ∧ t = drawn x y n s) ∨
    (n.toNat ≥ 1 ∧ effAddr s (n.toNat - 1) > 0xFFF ∧ t = raise .outOfBounds s) := by
  simp only [exec, execDrw, takeFault] at h
  split at h <;> rename_i hv <;> cases h <;> rw [spriteInBounds_iff, rowCount] at hv
  · exact .inl ⟨hv, rfl⟩
  · exact .inr ⟨by omega, by omega, rfl⟩

theorem exec_skp_cases {x : Reg} {s t : State} (h : exec (.skp x) s = .next t) :
    ((s.reg x).toNat ≤ 15 ∧ t = s.skipIf (keyDown s.keys (s.reg x).toNat)) ∨
    ((s.reg x).toNat > 15 ∧ t = raise .keyIndexRange s) := by
  simp only [exec, execSkp, takeFault] at h
  split at h <;> rename_i hv <;> cases h
  · exact .inr ⟨hv, rfl⟩
  · exact .inl ⟨Nat.le_of_not_gt hv, rfl⟩

theorem exec_sknp_cases {x : Reg} {s t : State} (h : exec (.sknp x) s = .next t) :
    ((s.reg x).toNat ≤ 15 ∧ t = s.skipIf (!keyDown s.keys (s.reg x).toNat)) ∨
    ((s.reg x).toNat > 15 ∧ t = raise .keyIndexRange s) := by
  simp only [exec, execSknp, takeFault] at h
  split at h <;> rename_i hv <;> cases h
  · exact .inr ⟨hv, rfl⟩
  · exact .inl ⟨Nat.le_of_not_gt hv, rfl⟩

theorem exec_ldVxK_cases {x : Reg} {s t : State} (h : exec (.ldVxK x) s = .next t) :
    (lowestKeyDown s.keys = none ∧ t = s.retreatPc) ∨
    ∃ k, k < 16 ∧ lowestKeyDown s.keys = some k ∧ t = s.setReg x (BitVec.ofNat 8 k) := by
  simp only [exec, execLdVxK] at h
  split at h
  · next hk => cases h; exact .inl ⟨hk, rfl⟩
  · next k hk => cases h; exact .inr ⟨k, by simpa using firstKeyDown_lt hk, hk, rfl⟩

end Sys2Proof.Machine
end

