-- ==== Sys2Proof/Laws/Cycle.lean ====
section
/-! SUPPORT. What the fetch, the instruction cycle and a step can do, each said once. -/

namespace Sys2Proof.Machine

theorem State.fetch_of_le {s : State} (h : s.pc.toNat ≤ 0xFFE) :
    s.fetch = some (wordOfBytes (s.mem.read s.pc.toNat) (s.mem.read (s.pc.toNat + 1))) := by
  simp only [State.fetch]
  rw [if_pos ((Memory.valid_iff _).2 (by omega))]

theorem State.fetch_eq_none {s : State} : s.fetch = none ↔ 0xFFF ≤ s.pc.toNat := by
  simp only [State.fetch]
  split <;> rename_i hv <;> rw [Memory.valid_iff] at hv <;> simp <;> omega

/-- The four cases of an instruction cycle (R84). -/
theorem cycle_cases {s t : State} (h : cycle s = .next t) :
    (s.halted = true ∧ t = s) ∨
    (s.halted = false ∧ 0xFFF ≤ s.pc.toNat ∧ t = raise .outOfBounds s) ∨
    (s.halted = false ∧ s.pc.toNat ≤ 0xFFE ∧ t = raise .decodeError s.advancePc) ∨
    ∃ i, s.halted = false ∧ s.pc.toNat ≤ 0xFFE ∧ exec i s.advancePc = .next t := by
  unfold cycle at h
  split at h
  · next hh => cases h; exact .inl ⟨hh, rfl⟩
  · next hh =>
    have hh : s.halted = false := by simpa using hh
    split at h
    · next hf => cases h; exact .inr (.inl ⟨hh, State.fetch_eq_none.1 hf, rfl⟩)
    · next w hf =>
      have hpc : s.pc.toNat ≤ 0xFFE := by
        by_contra hge
        rw [State.fetch_eq_none.2 (by omega)] at hf
        cases hf
      split at h
      · cases h; exact .inr (.inr (.inl ⟨hh, hpc, rfl⟩))
      · exact .inr (.inr (.inr ⟨_, hh, hpc, h⟩))

/-- When the environment's next event is `step`, a step is an instruction cycle. -/
theorem step_eq_cycle {s : State} (h : StepIsNext s) : step s = cycle (taken s) := by
  unfold step nextEvent taken
  cases hs : s.schedule with
  | nil =>
    have : s.setSchedule [] = s := by cases s; simp_all [State.setSchedule]
    simp [this]
  | cons e es =>
    have : e = .step := by simpa [StepIsNext, hs] using h
    subst this
    rfl

/-- When an event is scheduled, a step is that event. -/
theorem step_eq_applyEvent {s : State} {e : Event} {es : List Event} (h : s.schedule = e :: es) :
    step s = applyEvent e (s.setSchedule es) := by
  simp only [step, nextEvent, h]

theorem decode_two_iff {a b : Byte} {i : Instr} :
    decode [a, b] = .ok (i, []) ↔ decodeWord (wordOfBytes a b) = .ok i := by
  simp only [decode]
  cases decodeWord (wordOfBytes a b) <;> simp

end Sys2Proof.Machine
end

