-- ==== Sys2Proof/Laws/PerInstr.lean ====
section
/-! SUPPORT. Statements made per instruction. Family EncodesToRow: the word of an instruction is selected
by the instruction's own row of the opcode map (spec/30_encoding.md R88), and the row is in the map. -/

namespace Sys2Proof.Laws.EncodesToRow

/-- The word of `i` is selected by the row of `i`, and that row is one of the 34 (R88). -/
def Statement (i : Instr) : Prop := encode i &&& i.opRow.mask = i.opRow.value ∧ i.opRow ∈ opcodeMap

/-- Every instruction's row is in the opcode map. -/
theorem opRow_mem (i : Instr) : i.opRow ∈ opcodeMap := by
  cases i <;> simp [opcodeMap, Instr.opRow]

/-! ### Each format under its mask -/

theorem encodeNNN_and_class (op : Nibble) (nnn : Addr12) :
    encodeNNN op nnn &&& 0xF000 = encodeNNN op 0 := by
  apply BitVec.eq_of_getLsbD_eq
  intro i hi
  rw [BitVec.getLsbD_and, getLsbD_encodeNNN, getLsbD_encodeNNN]
  interval_cases i <;> simp

theorem encodeXNN_and_class (op : Nibble) (x : Reg) (nn : Byte) :
    encodeXNN op x nn &&& 0xF000 = encodeXNN op 0 0 := by
  apply BitVec.eq_of_getLsbD_eq
  intro i hi
  rw [BitVec.getLsbD_and, getLsbD_encodeXNN, getLsbD_encodeXNN]
  interval_cases i <;> simp

theorem encodeXNN_and_sub (op : Nibble) (x : Reg) (nn : Byte) :
    encodeXNN op x nn &&& 0xF0FF = encodeXNN op 0 nn := by
  apply BitVec.eq_of_getLsbD_eq
  intro i hi
  rw [BitVec.getLsbD_and, getLsbD_encodeXNN, getLsbD_encodeXNN]
  interval_cases i <;> simp

theorem encodeXYN_and_class (op : Nibble) (x y : Reg) (n : Nibble) :
    encodeXYN op x y n &&& 0xF000 = encodeXYN op 0 0 0 := by
  apply BitVec.eq_of_getLsbD_eq
  intro i hi
  rw [BitVec.getLsbD_and, getLsbD_encodeXYN, getLsbD_encodeXYN]
  interval_cases i <;> simp

theorem encodeXYN_and_sub (op : Nibble) (x y : Reg) (n : Nibble) :
    encodeXYN op x y n &&& 0xF00F = encodeXYN op 0 0 n := by
  apply BitVec.eq_of_getLsbD_eq
  intro i hi
  rw [BitVec.getLsbD_and, getLsbD_encodeXYN, getLsbD_encodeXYN]
  interval_cases i <;> simp

/-! ### One lemma per instruction -/

theorem cls : Statement .cls :=
  ⟨by decide, opRow_mem _⟩

theorem ret : Statement .ret :=
  ⟨by decide, opRow_mem _⟩

theorem jp (nnn : Addr12) : Statement (.jp nnn) :=
  ⟨encodeNNN_and_class _ _, opRow_mem _⟩

theorem call (nnn : Addr12) : Statement (.call nnn) :=
  ⟨encodeNNN_and_class _ _, opRow_mem _⟩

theorem seImm (x : Reg) (nn : Byte) : Statement (.seImm x nn) :=
  ⟨encodeXNN_and_class _ _ _, opRow_mem _⟩

theorem sneImm (x : Reg) (nn : Byte) : Statement (.sneImm x nn) :=
  ⟨encodeXNN_and_class _ _ _, opRow_mem _⟩

theorem seReg (x y : Reg) : Statement (.seReg x y) :=
  ⟨encodeXYN_and_sub _ _ _ _, opRow_mem _⟩

theorem ldImm (x : Reg) (nn : Byte) : Statement (.ldImm x nn) :=
  ⟨encodeXNN_and_class _ _ _, opRow_mem _⟩

theorem addImm (x : Reg) (nn : Byte) : Statement (.addImm x nn) :=
  ⟨encodeXNN_and_class _ _ _, opRow_mem _⟩

theorem ldReg (x y : Reg) : Statement (.ldReg x y) :=
  ⟨encodeXYN_and_sub _ _ _ _, opRow_mem _⟩

theorem orReg (x y : Reg) : Statement (.orReg x y) :=
  ⟨encodeXYN_and_sub _ _ _ _, opRow_mem _⟩

theorem andReg (x y : Reg) : Statement (.andReg x y) :=
  ⟨encodeXYN_and_sub _ _ _ _, opRow_mem _⟩

theorem xorReg (x y : Reg) : Statement (.xorReg x y) :=
  ⟨encodeXYN_and_sub _ _ _ _, opRow_mem _⟩

theorem addReg (x y : Reg) : Statement (.addReg x y) :=
  ⟨encodeXYN_and_sub _ _ _ _, opRow_mem _⟩

theorem subReg (x y : Reg) : Statement (.subReg x y) :=
  ⟨encodeXYN_and_sub _ _ _ _, opRow_mem _⟩

theorem shr (x y : Reg) : Statement (.shr x y) :=
  ⟨encodeXYN_and_sub _ _ _ _, opRow_mem _⟩

theorem subnReg (x y : Reg) : Statement (.subnReg x y) :=
  ⟨encodeXYN_and_sub _ _ _ _, opRow_mem _⟩

theorem shl (x y : Reg) : Statement (.shl x y) :=
  ⟨encodeXYN_and_sub _ _ _ _, opRow_mem _⟩

theorem sneReg (x y : Reg) : Statement (.sneReg x y) :=
  ⟨encodeXYN_and_sub _ _ _ _, opRow_mem _⟩

theorem ldI (nnn : Addr12) : Statement (.ldI nnn) :=
  ⟨encodeNNN_and_class _ _, opRow_mem _⟩

theorem jpV0 (nnn : Addr12) : Statement (.jpV0 nnn) :=
  ⟨encodeNNN_and_class _ _, opRow_mem _⟩

theorem rnd (x : Reg) (nn : Byte) : Statement (.rnd x nn) :=
  ⟨encodeXNN_and_class _ _ _, opRow_mem _⟩

theorem drw (x y : Reg) (n : Nibble) : Statement (.drw x y n) :=
  ⟨encodeXYN_and_class _ _ _ _, opRow_mem _⟩

theorem skp (x : Reg) : Statement (.skp x) :=
  ⟨encodeXNN_and_sub _ _ _, opRow_mem _⟩

theorem sknp (x : Reg) : Statement (.sknp x) :=
  ⟨encodeXNN_and_sub _ _ _, opRow_mem _⟩

theorem ldVxDt (x : Reg) : Statement (.ldVxDt x) :=
  ⟨encodeXNN_and_sub _ _ _, opRow_mem _⟩

theorem ldVxK (x : Reg) : Statement (.ldVxK x) :=
  ⟨encodeXNN_and_sub _ _ _, opRow_mem _⟩

theorem ldDtVx (x : Reg) : Statement (.ldDtVx x) :=
  ⟨encodeXNN_and_sub _ _ _, opRow_mem _⟩

theorem ldStVx (x : Reg) : Statement (.ldStVx x) :=
  ⟨encodeXNN_and_sub _ _ _, opRow_mem _⟩

theorem addI (x : Reg) : Statement (.addI x) :=
  ⟨encodeXNN_and_sub _ _ _, opRow_mem _⟩

theorem ldF (x : Reg) : Statement (.ldF x) :=
  ⟨encodeXNN_and_sub _ _ _, opRow_mem _⟩

theorem ldB (x : Reg) : Statement (.ldB x) :=
  ⟨encodeXNN_and_sub _ _ _, opRow_mem _⟩

theorem dump (x : Reg) : Statement (.dump x) :=
  ⟨encodeXNN_and_sub _ _ _, opRow_mem _⟩

theorem load (x : Reg) : Statement (.load x) :=
  ⟨encodeXNN_and_sub _ _ _, opRow_mem _⟩

end Sys2Proof.Laws.EncodesToRow
end

