-- ==== Sys2Proof/Tests/Slice0.lean ====
section
/-! SUPPORT. The model's own tests: the WellFormed smoke tests, words written out from the spec's
encodings, single steps with the results of spec/95_test_vectors.md, and for every statement with
hypotheses a witness that meets them. -/

namespace Sys2Proof.Tests

open Sys2Proof Sys2Proof.Machine

/-! ### Helpers -/

/-- The core right after reset. -/
def base : State := State.reset

/-- The outcome is a next state, and the test holds of it. -/
def after (r : Result) (p : State → Bool) : Bool :=
  match r with
  | .next t => p t
  | _ => false

/-- One step of `s` with the word `w` placed at its `pc`. -/
def run (w : Word) (s : State) : Result := step (placeWord s w)

/-- `s` with the byte `b` at `a`. -/
def poke (s : State) (a : Nat) (b : Byte) : State := s.setMem (s.mem.write a b)

/-- `s` with `pc` at `a`. -/
def at_ (s : State) (a : Word) : State := s.setPc a

/-- `s` with `n` stack entries in use, each 0x0202. -/
def deep (s : State) (n : Fin 17) : State := { s with sp := n, stack := Vector.replicate 16 0x0202 }

/-- `s` with these keys down. -/
def keyed (s : State) (k : BitVec 16) : State := { s with keys := k }

/-- `s` halted by the fault with this code. -/
def stopped (s : State) (code : BitVec 3) : State := { s with halted := true, faultCause := code }

/-- The fault with this code has been taken, with `pc` at `a`. -/
def faulted (code : BitVec 3) (a : Word) (t : State) : Bool :=
  t.halted && t.faultCause == code && t.pc == a

/-! ### WellFormed: an ill-formed term for each check (R90, R243) -/

/-- Each of the six rows of the table of illegal words (R90), by its smallest and largest words or by
the examples of spec/95_test_vectors.md. -/
theorem test_illegal_words_refused :
    legalWord 0x0000 = false ∧ legalWord 0x00E1 = false ∧ legalWord 0x01E0 = false ∧
    legalWord 0x5121 = false ∧ legalWord 0x5FFF = false ∧ legalWord 0x8128 = false ∧
    legalWord 0x812F = false ∧ legalWord 0x912F = false ∧ legalWord 0xE29F = false ∧
    legalWord 0xF000 = false ∧ legalWord 0xF075 = false ∧ legalWord 0xF0FF = false := by decide

/-- Legal words are not refused: the first and the last row of R88 and one between. -/
theorem test_legal_words_accepted :
    legalWord 0x00E0 = true ∧ legalWord 0x812E = true ∧ legalWord 0xFF65 = true := by decide

/-- The longest image that fits has 3584 bytes (R243). -/
theorem test_image_fits : imageFits (List.replicate 3584 0) = true := by
  rw [imageFits, List.length_replicate]; rfl

theorem test_image_too_long : imageFits (List.replicate 3585 0) = false := by
  rw [imageFits, List.length_replicate]; rfl

/-! ### Decoding: every constructor, its word written out bit by bit from R88 -/

theorem test_decode_flow :
    decodeWord 0b0000000011101110 = .ok .ret ∧
    decodeWord 0b0001001000110100 = .ok (.jp 0x234) ∧
    decodeWord 0b0010001100000000 = .ok (.call 0x300) ∧
    decodeWord 0b1011001100000001 = .ok (.jpV0 0x301) := ⟨rfl, rfl, rfl, rfl⟩

theorem test_decode_skips :
    decodeWord 0b0011101000000101 = .ok (.seImm 0xA 0x05) ∧
    decodeWord 0b0100101000000101 = .ok (.sneImm 0xA 0x05) ∧
    decodeWord 0b0101000100100000 = .ok (.seReg 1 2) ∧
    decodeWord 0b1001000100100000 = .ok (.sneReg 1 2) := ⟨rfl, rfl, rfl, rfl⟩

theorem test_decode_immediate :
    decodeWord 0b0110111111110001 = .ok (.ldImm 0xF 0xF1) ∧
    decodeWord 0b0111001100000101 = .ok (.addImm 3 0x05) ∧
    decodeWord 0b1100000100001111 = .ok (.rnd 1 0x0F) := ⟨rfl, rfl, rfl⟩

theorem test_decode_alu :
    decodeWord 0b1000000100100000 = .ok (.ldReg 1 2) ∧
    decodeWord 0b1000000100100001 = .ok (.orReg 1 2) ∧
    decodeWord 0b1000000100100010 = .ok (.andReg 1 2) ∧
    decodeWord 0b1000000100100011 = .ok (.xorReg 1 2) ∧
    decodeWord 0b1000000000010100 = .ok (.addReg 0 1) ∧
    decodeWord 0b1000000100100101 = .ok (.subReg 1 2) ∧
    decodeWord 0b1000001110100110 = .ok (.shr 3 0xA) ∧
    decodeWord 0b1000000100100111 = .ok (.subnReg 1 2) ∧
    decodeWord 0b1000001110101110 = .ok (.shl 3 0xA) :=
  ⟨rfl, rfl, rfl, rfl, rfl, rfl, rfl, rfl, rfl⟩

theorem test_decode_memory :
    decodeWord 0b1010001011110000 = .ok (.ldI 0x2F0) ∧
    decodeWord 0b1111000100011110 = .ok (.addI 1) ∧
    decodeWord 0b1111001000101001 = .ok (.ldF 2) ∧
    decodeWord 0b1111110000110011 = .ok (.ldB 0xC) ∧
    decodeWord 0b1111000101010101 = .ok (.dump 1) ∧
    decodeWord 0b1111001001100101 = .ok (.load 2) := ⟨rfl, rfl, rfl, rfl, rfl, rfl⟩

theorem test_decode_devices :
    decodeWord 0b0000000011100000 = .ok .cls ∧
    decodeWord 0b1101000000011111 = .ok (.drw 0 1 0xF) ∧
    decodeWord 0b1110001010011110 = .ok (.skp 2) ∧
    decodeWord 0b1110001010100001 = .ok (.sknp 2) ∧
    decodeWord 0b1111001100000111 = .ok (.ldVxDt 3) ∧
    decodeWord 0b1111001100001010 = .ok (.ldVxK 3) ∧
    decodeWord 0b1111001100010101 = .ok (.ldDtVx 3) ∧
    decodeWord 0b1111001100011000 = .ok (.ldStVx 3) :=
  ⟨rfl, rfl, rfl, rfl, rfl, rfl, rfl, rfl⟩

/-- Illegal words are rejected by name, and so are too few bytes (R80, R90). -/
theorem test_decode_rejects :
    decodeWord 0x0200 = .error .class0 ∧ decodeWord 0x5121 = .error .class5 ∧
    decodeWord 0x8128 = .error .class8 ∧ decodeWord 0x912F = .error .class9 ∧
    decodeWord 0xE29F = .error .classE ∧ decodeWord 0xF085 = .error .classF ∧
    decode [0x12] = .error .truncated := ⟨rfl, rfl, rfl, rfl, rfl, rfl, rfl⟩

/-- The byte at the lower address is the high byte, and the bytes after the word are left (R55). -/
theorem test_decode_big_endian : decode [0x12, 0x34, 0x56] = .ok (.jp 0x234, [0x56]) := rfl

/-- The host's view of a table word. -/
theorem test_decode_table_word : decodeTableWord 16 0x8014 = some (.addReg 0 1) := rfl

/-- The encoder gives the words the spec's examples write. -/
theorem test_encode :
    encode (.jp 0x234) = 0x1234 ∧ encode (.seImm 0xA 0x05) = 0x3A05 ∧ encode (.shl 3 0xA) = 0x83AE ∧
    encode (.drw 0 1 0xF) = 0xD01F ∧ encode (.sknp 2) = 0xE2A1 ∧ encode (.load 2) = 0xF265 ∧
    encodeBytes (.call 0x300) = [0x23, 0x00] := by decide

/-! ### The step: one word placed, one step taken (spec/95_test_vectors.md section 2) -/

/-! #### Control flow (2.1) -/

theorem test_jp : after (run 0x1234 base) (fun t => t.pc = 0x234) = true := by decide

theorem test_call_last_entry :
    after (run 0x2300 (deep base 15)) (fun t => t.stack[15] = 0x202 && t.sp = 16 && t.pc = 0x300)
      = true := by decide

theorem test_call_full : after (run 0x2300 (deep base 16))
    (fun t => faulted 2 0x202 t && t.sp = 16 && t.stack[15] = 0x202) = true := by decide

theorem test_ret : after (run 0x00EE (at_ (deep base 1) 0x300)) (fun t => t.sp = 0 && t.pc = 0x202)
    = true := by decide

theorem test_ret_empty : after (run 0x00EE (at_ base 0x300)) (fun t => faulted 3 0x302 t && t.sp = 0)
    = true := by decide

theorem test_jpV0_wraps : after (run 0xBFFF (base.setReg 0 0xFF)) (fun t => t.pc = 0x0FE) = true := by
  decide

/-! #### Skips (2.2) -/

theorem test_seImm : after (run 0x3A05 (base.setReg 0xA 5)) (fun t => t.pc = 0x204) = true := by decide

theorem test_seImm_past_memory :
    after (run 0x3000 (at_ base 0xFFE)) (fun t => t.pc = 0x1002) = true := by decide

theorem test_sneImm : after (run 0x4A05 (base.setReg 0xA 5)) (fun t => t.pc = 0x202) = true := by decide

theorem test_seReg : after (run 0x5120 ((base.setReg 1 0x33).setReg 2 0x34)) (fun t => t.pc = 0x202)
    = true := by decide

theorem test_sneReg : after (run 0x9120 ((base.setReg 1 1).setReg 2 2)) (fun t => t.pc = 0x204)
    = true := by decide

/-! #### Immediate and random (2.3) -/

theorem test_ldImm : after (run 0x6FFF base) (fun t => t.reg 0xF = 0xFF && t.pc = 0x202) = true := by
  decide

theorem test_addImm : after (run 0x7305 (base.setReg 3 0xFE)) (fun t => t.reg 3 = 3 && t.reg 0xF = 0)
    = true := by decide

theorem test_addImm_to_flag : after (run 0x7F01 (base.setReg 0xF 0xFF)) (fun t => t.reg 0xF = 0)
    = true := by decide

/-- `C100` leaves 0 whatever the random byte is, and consumes it. -/
theorem test_rnd_masked : ∃ t, exec (.rnd 1 0x00) base = .next t ∧ t.reg 1 = 0 ∧ t.rndDraws = 1 :=
  ⟨_, rfl, by simp [State.reg, State.rnd, State.setReg, State.drawRnd], rfl⟩

/-! #### ALU (2.4) -/

theorem test_ldReg : after (run 0x8120 (base.setReg 2 0x7C)) (fun t => t.reg 1 = 0x7C) = true := by decide

theorem test_orReg : after (run 0x8121 (((base.setReg 1 0x0F).setReg 2 0xF0).setReg 0xF 1))
    (fun t => t.reg 1 = 0xFF && t.reg 0xF = 1) = true := by decide

theorem test_andReg : after (run 0x8122 ((base.setReg 1 0x3C).setReg 2 0x0F)) (fun t => t.reg 1 = 0x0C)
    = true := by decide

theorem test_xorReg : after (run 0x8123 ((base.setReg 1 0xFF).setReg 2 0x0F)) (fun t => t.reg 1 = 0xF0)
    = true := by decide

theorem test_addReg : after (run 0x8014 ((base.setReg 0 0xFF).setReg 1 1))
    (fun t => t.reg 0 = 0 && t.reg 0xF = 1) = true := by decide

theorem test_addReg_flag_wins : after (run 0x8F14 ((base.setReg 0xF 0xFF).setReg 1 1))
    (fun t => t.reg 0xF = 1) = true := by decide

theorem test_subReg : after (run 0x8125 ((base.setReg 1 3).setReg 2 5))
    (fun t => t.reg 1 = 0xFE && t.reg 0xF = 0) = true := by decide

theorem test_subReg_equal : after (run 0x8125 ((base.setReg 1 7).setReg 2 7))
    (fun t => t.reg 1 = 0 && t.reg 0xF = 0) = true := by decide

theorem test_shr : after (run 0x83A6 ((base.setReg 3 5).setReg 0xA 0xF0))
    (fun t => t.reg 3 = 2 && t.reg 0xF = 1) = true := by decide

theorem test_subnReg : after (run 0x8127 ((base.setReg 1 3).setReg 2 5))
    (fun t => t.reg 1 = 2 && t.reg 0xF = 1) = true := by decide

theorem test_subnReg_borrow : after (run 0x8127 ((base.setReg 1 5).setReg 2 3))
    (fun t => t.reg 1 = 0xFE && t.reg 0xF = 0) = true := by decide

theorem test_shl : after (run 0x83AE ((base.setReg 3 0x81).setReg 0xA 0xFF))
    (fun t => t.reg 3 = 2 && t.reg 0xF = 1) = true := by decide

/-! #### Index and memory (2.5) -/

theorem test_ldI : after (run 0xA2F0 base) (fun t => t.i = 0x2F0) = true := by decide

theorem test_addI_wraps : after (run 0xF11E ((base.setI 0xF80).setReg 1 0xFF)) (fun t => t.i = 0x07F)
    = true := by decide

theorem test_ldF_unmasked : after (run 0xF229 (base.setReg 2 0xFF)) (fun t => t.i = 0x4FB) = true := by
  decide

theorem test_ldB : after (run 0xF033 ((base.setI 0xFFD).setReg 0 0xFE))
    (fun t => t.mem.readBytes 0xFFD 3 = [2, 5, 4] && t.i = 0xFFD) = true := by decide

theorem test_ldB_past_memory : after (run 0xF033 ((base.setI 0xFFE).setReg 0 0xFE))
    (fun t => faulted 4 0x202 t && t.mem.readBytes 0xFFE 2 = [0, 0]) = true := by decide

theorem test_dump : after (run 0xF155 ((poke (base.setI 0x400) 0x402 7).setReg 0 0x11 |>.setReg 1 0x22))
    (fun t => t.mem.readBytes 0x400 3 = [0x11, 0x22, 7] && t.i = 0x400) = true := by decide

theorem test_dump_past_memory : after (run 0xF155 ((base.setI 0xFFF).setReg 0 0x11))
    (fun t => faulted 4 0x202 t && t.mem.read 0xFFF = 0) = true := by decide

theorem test_load : after (run 0xF265 (poke (poke (poke (base.setI 0x300) 0x300 2) 0x301 5) 0x302 4))
    (fun t => t.reg 0 = 2 && t.reg 1 = 5 && t.reg 2 = 4 && t.reg 3 = 0 && t.i = 0x300) = true := by
  decide

theorem test_load_past_memory : after (run 0xF165 ((base.setI 0xFFF).setReg 0 9))
    (fun t => faulted 4 0x202 t && t.reg 0 = 9) = true := by decide

/-! #### Display (2.6) -/

theorem test_cls : after (run 0x00E0 { base with fb := (base.fb.flip 5).flip 2047 })
    (fun t => t.fb = Display.clear && t.drawPending) = true := by decide

/-- `D011` with the row 0x81 at (63, 31): `FB[2047]` and, around the edge, `FB[1990]`. -/
theorem test_drw_wraps :
    after (run 0xD011 ((poke (base.setI 0x300) 0x300 0x81).setReg 0 63 |>.setReg 1 31))
      (fun t => t.fb.pixel 2047 && t.fb.pixel 1990 && !t.fb.pixel 2040 && t.reg 0xF = 0 &&
        t.drawPending) = true := by decide

/-- `D011` on a lit pixel turns it off and reports it. -/
theorem test_drw_collides :
    after (run 0xD011 (poke { base.setI 0x300 with fb := base.fb.flip 0 } 0x300 0x80))
      (fun t => !t.fb.pixel 0 && t.reg 0xF = 1) = true := by decide

/-! #### Keypad (2.7) -/

theorem test_skp : after (run 0xE29E ((keyed base 0x80).setReg 2 7)) (fun t => t.pc = 0x204) = true := by
  decide

theorem test_skp_no_such_key : after (run 0xE29E (base.setReg 2 0x10)) (faulted 6 0x202) = true := by
  decide

theorem test_sknp : after (run 0xE2A1 ((keyed base 0x80).setReg 2 7)) (fun t => t.pc = 0x202)
    = true := by decide

theorem test_ldVxK_lowest : after (run 0xF30A (keyed base 0x208)) (fun t => t.reg 3 = 3 && t.pc = 0x202)
    = true := by decide

theorem test_ldVxK_waits : after (run 0xF30A base) (fun t => t.pc = 0x200 && t.reg 3 = 0) = true := by
  decide

/-! #### Timers and the other events (2.8, 2.9) -/

theorem test_ldVxDt : after (run 0xF307 (base.setDt 0x2A)) (fun t => t.reg 3 = 0x2A) = true := by decide

theorem test_ldDtVx : after (run 0xF315 (base.setReg 3 0x3C)) (fun t => t.dt = 0x3C) = true := by decide

theorem test_ldStVx : after (run 0xF318 (base.setReg 3 5)) (fun t => t.st = 5) = true := by decide

theorem test_tick_clamps : (tick ((base.setDt 1).setSt 0)).dt = 0 ∧ (tick ((base.setDt 1).setSt 0)).st = 0 :=
  by decide

theorem test_tick_halted :
    after (step ((stopped (base.setDt 2) 1).setSchedule [.tick])) (fun t => t.dt = 1 && t.halted)
      = true := by decide

theorem test_load_event :
    after (step (base.setSchedule [.load [0x12, 0x34]]))
      (fun t => t.mem.readBytes 0x1FF 4 = [0, 0x12, 0x34, 0] && t.pc = 0x200) = true := by decide

theorem test_reset_event :
    after (step ((stopped (base.setReg 3 7) 4).setSchedule [.reset]))
      (fun t => !t.halted && t.faultCause = 0 && t.reg 3 = 0) = true := by decide

/-- The empty image: the first step after reset fetches 0x0000 and takes `DecodeError` (P9). -/
theorem test_empty_image : after (step base) (faulted 1 0x202) = true := by decide

theorem test_fetch_past_memory : after (step (at_ base 0xFFF)) (faulted 4 0xFFF) = true := by decide

/-- An odd `PC` is honoured: the word at 0x201 is fetched (R27, R59). -/
theorem test_odd_pc : after (run 0x6001 (at_ base 0x201)) (fun t => t.reg 0 = 1 && t.pc = 0x203)
    = true := by decide

/-- A word placed for the host is what the very next step runs, from reset and from a halted core. -/
theorem test_withFetchWord :
    after (step (base.withFetchWord 16 0x6005)) (fun t => t.reg 0 = 5 && t.pc = 0x202) = true ∧
    after (step ((at_ (stopped base 4) 0xFFF).withFetchWord 16 0x6005)) (fun t => t.reg 0 = 5) = true := by
  decide

/-! #### The memory's canonical form -/

/-- Writing back what an unlisted address reads as removes the entry: 0xF0 is the font's first byte. -/
theorem test_memory_canonical :
    Memory.write (Memory.write [] 0 7) 0 0xF0 = [] ∧ Memory.write [] 0x300 0 = [] ∧
    Memory.write (Memory.write [] 0x301 2) 0x300 1 = [(0x300, 1), (0x301, 2)] := by decide

theorem test_memory_wf_refuses :
    Memory.wf [(5, 1), (5, 2)] = false ∧ Memory.wf [(6, 1), (5, 2)] = false ∧
    Memory.wf [(0x300, 0)] = false ∧ Memory.wf [(0x1000, 1)] = false ∧
    Memory.wf [(5, 1), (0xFFF, 2)] = true := by decide

/-! ### Witnesses: for every statement with hypotheses, states and operands that meet them, each clause
at a boundary of its range -/

theorem witness_DecodeThenEncodeReturnsWord : decodeWord 0x83A6 = .ok (.shr 3 0xA) := rfl

theorem witness_DecoderFollowsOpcodeMap : (Instr.shr 0 0).opRow ∈ opcodeMap ∧
    (0x83A6 : Word) &&& (Instr.shr 0 0).opRow.mask = (Instr.shr 0 0).opRow.value := by decide

/-- One word of each clause of the table of illegal words. -/
theorem witness_RejectedWordsAreTheIllegalOnes :
    decodeWord 0x0FFF = .error .class0 ∧ decodeWord 0x5121 = .error .class5 ∧
    decodeWord 0x812D = .error .class8 ∧ decodeWord 0x9121 = .error .class9 ∧
    decodeWord 0xE2A0 = .error .classE ∧ decodeWord 0xF3FF = .error .classF :=
  ⟨rfl, rfl, rfl, rfl, rfl, rfl⟩

/-- A core about to execute the word at the last fetchable address. -/
def last (w : Word) : State := placeWord (at_ base 0xFFE) w

theorem witness_StepRunsDecodedInstruction : StepIsNext (last 0x6001) ∧ Running (last 0x6001) ∧
    (last 0x6001).pc.toNat ≤ 0xFFE ∧ decode [(last 0x6001).mem.read (last 0x6001).pc.toNat,
      (last 0x6001).mem.read ((last 0x6001).pc.toNat + 1)] = .ok (.ldImm 0 1, []) :=
  ⟨.inl rfl, rfl, by decide, rfl⟩

theorem witness_StepRunsDecodedInstruction_scheduled :
    StepIsNext ((last 0x6001).setSchedule [.step, .tick]) := .inr rfl

theorem witness_FetchPastMemoryTakesOutOfBounds :
    StepIsNext (at_ base 0xFFF) ∧ Running (at_ base 0xFFF) ∧ 0xFFF ≤ (at_ base 0xFFF).pc.toNat :=
  ⟨.inl rfl, rfl, by decide⟩

theorem witness_IllegalWordTakesDecodeError : StepIsNext (last 0x812F) ∧ Running (last 0x812F) ∧
    (last 0x812F).pc.toNat ≤ 0xFFE ∧ decodeWord ((last 0x812F).mem.read (last 0x812F).pc.toNat ++
      (last 0x812F).mem.read ((last 0x812F).pc.toNat + 1)) = .error .class8 :=
  ⟨.inl rfl, rfl, by decide, rfl⟩

theorem witness_HaltedCoreNeverMoves :
    (stopped base 1).halted = true ∧ (stopped base 1).schedule = [] := ⟨rfl, rfl⟩

/-- A halted core with a step, a tick or a load as its next event. -/
theorem witness_OnlyResetLeavesHaltedState : ∀ e ∈ [Event.step, .tick, .load [0x12]],
    let s := (stopped (base.setDt 2) 1).setSchedule [e]
    s.halted = true ∧ (∃ t, step s = .next t) ∧ s.schedule.head? ≠ some .reset := by
  intro e he
  simp only [List.mem_cons, List.not_mem_nil, or_false] at he
  rcases he with rfl | rfl | rfl <;> exact ⟨rfl, ⟨_, rfl⟩, by decide⟩

/-- Running states on both sides of each condition of the fault table. -/
theorem witness_ExecuteFaultsAreTabledAndPrecise : Running base ∧
    tableFault (.call 0) (deep base 15) = none ∧ tableFault (.call 0) (deep base 16) = some 2 ∧
    tableFault .ret (deep base 1) = none ∧ tableFault .ret base = some 3 ∧
    tableFault (.ldB 0) (base.setI 0xFFD) = none ∧ tableFault (.ldB 0) (base.setI 0xFFE) = some 4 ∧
    tableFault (.dump 15) (base.setI 0xFF0) = none ∧
    tableFault (.load 15) (base.setI 0xFF1) = some 4 ∧
    tableFault (.drw 0 1 0) (base.setI 0xFFFF) = none ∧
    tableFault (.drw 0 1 15) (base.setI 0xFF1) = none ∧
    tableFault (.drw 0 1 15) (base.setI 0xFF2) = some 4 ∧
    tableFault (.skp 2) (base.setReg 2 15) = none ∧ tableFault (.sknp 2) (base.setReg 2 16) = some 6 :=
  ⟨rfl, by decide⟩

theorem witness_FaultingStepIsPrecise :
    (StepIsNext base ∧ Running base ∧ ∃ t, step base = .next t ∧ t.halted = true) ∧
    (StepIsNext (at_ base 0xFFF) ∧ Running (at_ base 0xFFF) ∧
      ∃ t, step (at_ base 0xFFF) = .next t ∧ t.halted = true) :=
  ⟨⟨.inl rfl, rfl, _, rfl, rfl⟩, ⟨.inl rfl, rfl, _, rfl, rfl⟩⟩

theorem witness_CallPushesReturnAddress : (deep base 15).sp.val < 16 ∧ (deep base 16).sp.val = 16 := by
  decide

theorem witness_RetPopsReturnAddress : (deep base 1).sp.val = (0 : Fin 16).val + 1 ∧
    (deep base 16).sp.val = (15 : Fin 16).val + 1 ∧ base.sp.val = 0 := by decide

/-- `2FFE` at 0x200 and `00EE` at 0xFFE, with one stack entry left. -/
def callThenRet : State := poke (poke (placeWord (deep base 15) 0x2FFE) 0xFFE 0x00) 0xFFF 0xEE

theorem witness_CallThenRetReturnsAfterCall : Running callThenRet ∧ callThenRet.schedule = [] ∧
    callThenRet.pc.toNat ≤ 0xFFE ∧ (0xFFE : Addr12).toNat ≤ 0xFFE ∧ callThenRet.sp.val < 16 ∧
    decode [callThenRet.mem.read callThenRet.pc.toNat,
      callThenRet.mem.read (callThenRet.pc.toNat + 1)] = .ok (.call 0xFFE, []) ∧
    decode [callThenRet.mem.read (0xFFE : Addr12).toNat,
      callThenRet.mem.read ((0xFFE : Addr12).toNat + 1)] = .ok (.ret, []) :=
  ⟨rfl, rfl, by decide, by decide, by decide, rfl, rfl⟩

theorem witness_FlagWritersLeaveZeroOrOne : writesFlag (.shl 0xF 0) ∧ Running (base.setReg 0xF 0x81) ∧
    ∃ t, exec (.shl 0xF 0) (base.setReg 0xF 0x81) = .next t ∧ t.halted = false :=
  ⟨trivial, rfl, _, rfl, rfl⟩

theorem witness_BcdStoresThreeDigits :
    effAddr (base.setI 0xFFD) 2 ≤ 0xFFF ∧ effAddr (base.setI 0xFFE) 2 > 0xFFF := by decide

theorem witness_DumpStoresRegisters : effAddr (base.setI 0xFF0) (15 : Reg).val ≤ 0xFFF ∧
    effAddr (base.setI 0xFF1) (15 : Reg).val > 0xFFF := by decide

theorem witness_LoadFillsRegisters : effAddr (base.setI 0xFFF) (0 : Reg).val ≤ 0xFFF ∧
    effAddr (base.setI 0xFFF) (1 : Reg).val > 0xFFF := by decide

theorem witness_DumpThenLoadRestoresRegisters : effAddr (base.setI 0xFF0) (15 : Reg).val ≤ 0xFFF ∧
    ∃ t, exec (.dump 15) (base.setI 0xFF0) = .next t ∧
      ∃ u : State, u.reg 3 ≠ t.reg 3 ∧ u.i = t.i ∧ ∀ a : Nat, u.mem.read a = t.mem.read a :=
  ⟨by decide, _, rfl, (base.setI 0xFF0).setReg 3 9 |>.setMem _, by decide, rfl, fun _ => rfl⟩

/-- Sprites of no rows (at any `I`), of one row and of 15 rows that just fit. -/
theorem witness_DrawXorsWrappedSprite :
    ((0 : Nibble).toNat ≥ 1 → effAddr (base.setI 0xFFFF) ((0 : Nibble).toNat - 1) ≤ 0xFFF) ∧
    ((1 : Nibble).toNat ≥ 1 → effAddr (base.setI 0xFFF) ((1 : Nibble).toNat - 1) ≤ 0xFFF) ∧
    ((15 : Nibble).toNat ≥ 1 → effAddr (base.setI 0xFF1) ((15 : Nibble).toNat - 1) ≤ 0xFFF) := by
  decide

theorem witness_DrawPastMemoryTakesOutOfBounds : (15 : Nibble).toNat ≥ 1 ∧
    effAddr (base.setI 0xFF2) ((15 : Nibble).toNat - 1) > 0xFFF ∧
    effAddr (base.setI 0x1000) ((1 : Nibble).toNat - 1) > 0xFFF := by decide

theorem witness_DrawTwiceRestoresDisplay : (0 : Reg) ≠ 0xF ∧ (1 : Reg) ≠ 0xF ∧
    ((15 : Nibble).toNat ≥ 1 → effAddr (base.setI 0xFF1) ((15 : Nibble).toNat - 1) ≤ 0xFFF) := by decide

theorem witness_KeySkipsFollowKeyState :
    ((base.setReg 2 15).reg 2).toNat ≤ 15 ∧ ((base.setReg 2 16).reg 2).toNat > 15 := by decide

theorem witness_KeyWaitStoresLeastKey :
    (15 ≤ 15 ∧ (keyed base 0x8000).keys.getLsbD 15 = true ∧
      ∀ j : Nat, j < 15 → (keyed base 0x8000).keys.getLsbD j = false) ∧
    ∀ k : Nat, k ≤ 15 → base.keys.getLsbD k = false :=
  ⟨⟨by decide, by decide, by decide⟩, by decide⟩

theorem witness_KeyWaitStepIsIdentity : Running (last 0xF30A) ∧ (last 0xF30A).schedule = [] ∧
    (last 0xF30A).pc.toNat ≤ 0xFFE ∧ decode [(last 0xF30A).mem.read (last 0xF30A).pc.toNat,
      (last 0xF30A).mem.read ((last 0xF30A).pc.toNat + 1)] = .ok (.ldVxK 3, []) ∧
    ∀ k : Nat, k ≤ 15 → (last 0xF30A).keys.getLsbD k = false :=
  ⟨rfl, rfl, by decide, rfl, by decide⟩

theorem witness_KeysAndAcknowledgeEvents :
    (base.setSchedule [.setKeys 0x8001]).schedule = .setKeys 0x8001 :: [] ∧
    (base.setSchedule [.drawAck]).schedule = .drawAck :: [] ∧
    (base.setSchedule [.tick, .step]).schedule = .tick :: [.step] := ⟨rfl, rfl, rfl⟩

theorem witness_LoadPlacesImage :
    (base.setSchedule [.load [0x12, 0x34], .step]).schedule = .load [0x12, 0x34] :: [.step] ∧
    Running base ∧ (List.replicate 3584 (1 : Byte)).length ≤ 3584 ∧
    (List.replicate 3585 (1 : Byte)).length > 3584 ∧ (stopped base 4).halted = true :=
  ⟨rfl, rfl, by rw [List.length_replicate], by rw [List.length_replicate]; decide, rfl⟩

theorem witness_ResetSetsEveryPiece :
    ((stopped base 4).setSchedule [.reset, .step]).schedule = .reset :: [.step] := rfl

theorem witness_OnlyClearAndDrawWriteDisplay :
    (∃ t, exec .cls base = .next t ∧ ¬ Part.drawPending.same base t) ∧
    ∃ t, exec .cls (base.setDisplay Display.clear) = .next t ∧
      (base.setDisplay Display.clear).drawPending = true :=
  ⟨⟨_, rfl, by simp [Part.same, base, State.reset, State.setDisplay]⟩, _, rfl, rfl⟩

theorem witness_OnlyBcdAndDumpWriteMemory :
    (∃ t, exec (.ldB 0) ((base.setI 0xFFD).setReg 0 9) = .next t ∧
      t.mem.read 0xFFF ≠ ((base.setI 0xFFD).setReg 0 9).mem.read 0xFFF) ∧
    ∃ t, exec (.dump 15) ((base.setI 0xFF0).setReg 15 9) = .next t ∧
      t.mem.read 0xFFF ≠ ((base.setI 0xFF0).setReg 15 9).mem.read 0xFFF :=
  ⟨⟨_, rfl, by decide⟩, _, rfl, by decide⟩

theorem witness_OnlyThreeInstructionsWriteIndex :
    (∃ t, exec (.ldI 0xFFF) base = .next t ∧ t.i ≠ base.i) ∧
    (∃ t, exec (.addI 1) (base.setReg 1 5) = .next t ∧ t.i ≠ (base.setReg 1 5).i) ∧
    ∃ t, exec (.ldF 1) (base.setReg 1 0xFF) = .next t ∧ t.i ≠ (base.setReg 1 0xFF).i :=
  ⟨⟨_, rfl, by decide⟩, ⟨_, rfl, by decide⟩, _, rfl, by decide⟩

theorem witness_RegistersChangeOnlyWhereNamed :
    (∃ t, exec (.addReg 0 1) ((base.setReg 0 0xFF).setReg 1 2) = .next t ∧
      t.reg 0xF ≠ ((base.setReg 0 0xFF).setReg 1 2).reg 0xF) ∧
    ∃ t, exec (.load 15) base = .next t ∧ t.reg 15 ≠ base.reg 15 :=
  ⟨⟨_, rfl, by decide⟩, _, rfl, by decide⟩

theorem witness_StraightLineKeepsPc : straightLine (.load 15) ∧ ∃ t, exec (.load 15) base = .next t :=
  ⟨trivial, _, rfl⟩

theorem witness_KeysTimersAndStackHaveFewWriters :
    (∃ t, exec (.ldDtVx 1) (base.setReg 1 5) = .next t ∧ t.dt ≠ (base.setReg 1 5).dt) ∧
    (∃ t, exec (.ldStVx 1) (base.setReg 1 5) = .next t ∧ t.st ≠ (base.setReg 1 5).st) ∧
    (∃ t, exec (.call 0x300) base = .next t ∧ ¬ Part.stack.same base t) ∧
    ∃ t, exec (.rnd 1 5) base = .next t ∧ t.rndDraws ≠ base.rndDraws :=
  ⟨⟨_, rfl, by decide⟩, ⟨_, rfl, by decide⟩, ⟨_, rfl, fun h => absurd h.1 (by decide)⟩,
    _, rfl, by decide⟩

theorem witness_SoundTimerAndDrawFlagAreNeverRead :
    AgreeExcept [.st, .drawPending] base (base.setSt 3) ∧
    (∃ t, exec (.ldVxDt 1) base = .next t) ∧ ∃ t, exec (.ldVxDt 1) (base.setSt 3) = .next t :=
  ⟨fun p hp => by cases p <;> first | exact absurd hp (by decide) | simp [Part.same, base, State.reg, State.setSt],
    ⟨_, rfl⟩, _, rfl⟩

theorem witness_EveryStepKeepsInvariant : Invariant (at_ base 0x1002) ∧
    ∃ t, step (at_ base 0x1002) = .next t :=
  ⟨⟨rfl, by decide, by decide, by decide, by decide, by decide⟩, _, rfl⟩

end Sys2Proof.Tests
end

section
/-! What each state update leaves unchanged, and how two states that agree in some parts stay in agreement
under it; then the events set_keys, draw_ack, tick and load (spec/00_scope.md R6), and the proof that no
instruction reads `ST` or `DRAW_PENDING`. -/

namespace Sys2Proof.Machine

/-! ### The frame of each update -/

theorem Frame.comp {l l' : List Part} {s t u : State} (h : Frame l s t) (h' : Frame l' t u) :
    Frame (l' ++ l) s u :=
  (h.mono fun _ hp => List.mem_append_right _ hp).trans (h'.mono fun _ hp => List.mem_append_left _ hp)

theorem setReg_frame (s : State) (x : Reg) (b : Byte) : Frame [.v] s (s.setReg x b) := by
  intro p hp
  cases p <;> simp_all [Part.same]

theorem setRegFlag_frame (s : State) (x : Reg) (r f : Byte) : Frame [.v] s (s.setRegFlag x r f) :=
  (setReg_frame s x r).trans (setReg_frame _ VF f)

theorem setRegsUpTo_frame (s : State) (x : Reg) (f : Nat → Byte) :
    Frame [.v] s (s.setRegsUpTo x f) := by
  intro p hp
  cases p <;> simp_all [Part.same]

theorem setI_frame (s : State) (w : Word) : Frame [.i] s (s.setI w) := by
  intro p hp
  cases p <;> simp_all [Part.same]

theorem setPc_frame (s : State) (w : Word) : Frame [.pc] s (s.setPc w) := by
  intro p hp
  cases p <;> simp_all [Part.same]

theorem setStack_frame (s : State) (stack : Vector Word Config.stackDepth)
    (sp : Fin (Config.stackDepth + 1)) : Frame [.stack] s { s with stack := stack, sp := sp } := by
  intro p hp
  cases p <;> simp_all [Part.same, State.reg]

theorem setDt_frame (s : State) (b : Byte) : Frame [.dt] s (s.setDt b) := by
  intro p hp
  cases p <;> simp_all [Part.same]

theorem setSt_frame (s : State) (b : Byte) : Frame [.st] s (s.setSt b) := by
  intro p hp
  cases p <;> simp_all [Part.same]

theorem setMem_frame (s : State) (m : Memory) : Frame [.mem] s (s.setMem m) := by
  intro p hp
  cases p <;> simp_all [Part.same]

theorem setDisplay_frame (s : State) (d : Display) : Frame [.fb, .drawPending] s (s.setDisplay d) := by
  intro p hp
  cases p <;> simp_all [Part.same]

theorem drawRnd_frame (s : State) : Frame [.draws] s s.drawRnd := by
  intro p hp
  cases p <;> simp_all [Part.same]

theorem setSchedule_frame (s : State) (es : List Event) : Frame [.schedule] s (s.setSchedule es) := by
  intro p hp
  cases p <;> simp_all [Part.same]

theorem setKeys_frame (s : State) (keys : BitVec 16) : Frame [.keys] s (setKeys keys s) := by
  intro p hp
  cases p <;> simp_all [Part.same]

theorem drawAck_frame (s : State) : Frame [.drawPending] s (drawAck s) := by
  intro p hp
  cases p <;> simp_all [Part.same]

/-! ### Agreement of two states under the same update -/

/-- The square of two updates: when both change only the parts `changed`, agreement has to be checked in
those parts alone. -/
theorem AgreeExcept.square {l changed : List Part} {s s' t t' : State} (h : AgreeExcept l s s')
    (ht : Frame changed s t) (ht' : Frame changed s' t')
    (hc : ∀ p ∈ changed, p ∉ l → p.same t t') : AgreeExcept l t t' := by
  intro p hp
  by_cases hpc : p ∈ changed
  · exact hc p hpc hp
  · have hts := p.same_symm s t (ht p hpc)
    exact p.same_trans t s' t' (p.same_trans t s s' hts (h p hp)) (ht' p hpc)

section
variable {l : List Part} {s s' : State}

theorem AgreeExcept.setReg (h : AgreeExcept l s s') (x : Reg) (b : Byte) :
    AgreeExcept l (s.setReg x b) (s'.setReg x b) := by
  refine h.square (setReg_frame s x b) (setReg_frame s' x b) ?_
  simp only [List.mem_singleton, forall_eq, Part.same, State.reg_setReg]
  intro hv r
  rw [h .v hv r]

theorem AgreeExcept.setRegFlag (h : AgreeExcept l s s') (x : Reg) (r f : Byte) :
    AgreeExcept l (s.setRegFlag x r f) (s'.setRegFlag x r f) :=
  (h.setReg x r).setReg VF f

theorem AgreeExcept.setRegsUpTo (h : AgreeExcept l s s') (x : Reg) (f : Nat → Byte) :
    AgreeExcept l (s.setRegsUpTo x f) (s'.setRegsUpTo x f) := by
  refine h.square (setRegsUpTo_frame s x f) (setRegsUpTo_frame s' x f) ?_
  simp only [List.mem_singleton, forall_eq, Part.same, State.reg_setRegsUpTo]
  intro hv r
  rw [h .v hv r]

theorem AgreeExcept.setI (h : AgreeExcept l s s') (w : Word) :
    AgreeExcept l (s.setI w) (s'.setI w) :=
  h.square (setI_frame s w) (setI_frame s' w) (by simp [Part.same])

theorem AgreeExcept.setPc (h : AgreeExcept l s s') (w : Word) :
    AgreeExcept l (s.setPc w) (s'.setPc w) :=
  h.square (setPc_frame s w) (setPc_frame s' w) (by simp [Part.same])

theorem AgreeExcept.setStack (h : AgreeExcept l s s') (stack : Vector Word Config.stackDepth)
    (sp : Fin (Config.stackDepth + 1)) :
    AgreeExcept l { s with stack := stack, sp := sp } { s' with stack := stack, sp := sp } :=
  h.square (setStack_frame s stack sp) (setStack_frame s' stack sp) (by simp [Part.same])

theorem AgreeExcept.setDt (h : AgreeExcept l s s') (b : Byte) :
    AgreeExcept l (s.setDt b) (s'.setDt b) :=
  h.square (setDt_frame s b) (setDt_frame s' b) (by simp [Part.same])

theorem AgreeExcept.setSt (h : AgreeExcept l s s') (b : Byte) :
    AgreeExcept l (s.setSt b) (s'.setSt b) :=
  h.square (setSt_frame s b) (setSt_frame s' b) (by simp [Part.same])

theorem AgreeExcept.setDisplay (h : AgreeExcept l s s') (d : Display) :
    AgreeExcept l (s.setDisplay d) (s'.setDisplay d) :=
  h.square (setDisplay_frame s d) (setDisplay_frame s' d) (by simp [Part.same])

theorem AgreeExcept.raise (h : AgreeExcept l s s') (f : Fault) :
    AgreeExcept l (raise f s) (raise f s') :=
  h.square (raise_frame f s) (raise_frame f s') (by simp [Part.same])

theorem AgreeExcept.drawRnd (h : AgreeExcept l s s') : AgreeExcept l s.drawRnd s'.drawRnd := by
  refine h.square (drawRnd_frame s) (drawRnd_frame s') ?_
  simp only [List.mem_singleton, forall_eq, Part.same, State.drawRnd_rndDraws]
  intro hd
  rw [h .draws hd]

/-- Agreement in memory is agreement of every read, so both states may list their cells differently. -/
theorem AgreeExcept.writeBytes (h : AgreeExcept l s s') (a : Nat) (bytes : List Byte) :
    AgreeExcept l (s.setMem (s.mem.writeBytes a bytes)) (s'.setMem (s'.mem.writeBytes a bytes)) := by
  refine h.square (setMem_frame s _) (setMem_frame s' _) ?_
  simp only [List.mem_singleton, forall_eq, Part.same, State.setMem_mem, Memory.read_writeBytes]
  intro hm b
  rw [h .mem hm b]

end

/-! ### What agreement says of the values an instruction reads -/

/-- A display is determined by its 2048 pixels. -/
theorem Display.eq_of_pixel {d d' : Display} (h : ∀ idx : Nat, idx < 2048 → d'.pixel idx = d.pixel idx) :
    d' = d := by
  refine Vector.ext fun r hr => BitVec.eq_of_getLsbD_eq fun c hc => ?_
  simp only [Config.rows, Config.columns] at hr hc
  have hrow : rowOf (r * 64 + c) = ⟨r, hr⟩ := by
    simp only [rowOf, Fin.ext_iff, Fin.val_ofNat, Config.rows, Config.columns]
    omega
  have hcol : columnOf (r * 64 + c) = c := by simp only [columnOf, Config.columns]; omega
  have hp := h (r * 64 + c) (by omega)
  simpa only [Display.pixel, hrow, hcol, Fin.getElem_fin] using hp

/-- The two parts that no instruction reads. -/
def unreadParts : List Part := [.st, .drawPending]

section
variable {s s' : State}

theorem AgreeExcept.reg_eq (h : AgreeExcept unreadParts s s') (r : Reg) : s'.reg r = s.reg r :=
  h .v (by decide) r

theorem AgreeExcept.i_eq (h : AgreeExcept unreadParts s s') : s'.i = s.i := h .i (by decide)

theorem AgreeExcept.pc_eq (h : AgreeExcept unreadParts s s') : s'.pc = s.pc := h .pc (by decide)

theorem AgreeExcept.dt_eq (h : AgreeExcept unreadParts s s') : s'.dt = s.dt := h .dt (by decide)

theorem AgreeExcept.keys_eq (h : AgreeExcept unreadParts s s') : s'.keys = s.keys := h .keys (by decide)

theorem AgreeExcept.sp_eq (h : AgreeExcept unreadParts s s') : s'.sp = s.sp := (h .stack (by decide)).1

theorem AgreeExcept.stack_eq (h : AgreeExcept unreadParts s s') : s'.stack = s.stack :=
  Vector.ext fun k hk => (h .stack (by decide)).2 ⟨k, hk⟩

theorem AgreeExcept.fb_eq (h : AgreeExcept unreadParts s s') : s'.fb = s.fb :=
  Display.eq_of_pixel (h .fb (by decide))

theorem AgreeExcept.read_eq (h : AgreeExcept unreadParts s s') (a : Nat) : s'.mem.read a = s.mem.read a :=
  h .mem (by decide) a

theorem AgreeExcept.rnd_eq (h : AgreeExcept unreadParts s s') : s'.rnd = s.rnd :=
  congrArg Config.rnd (h .draws (by decide))

theorem AgreeExcept.effAddr_eq (h : AgreeExcept unreadParts s s') (k : Nat) : effAddr s' k = effAddr s k := by
  simp only [effAddr, h.i_eq]

theorem AgreeExcept.keyNumber_eq (h : AgreeExcept unreadParts s s') (x : Reg) :
    keyNumber s' x = keyNumber s x := by
  simp only [keyNumber, h.reg_eq]

theorem AgreeExcept.regsUpTo_eq (h : AgreeExcept unreadParts s s') (x : Reg) :
    regsUpTo s' x = regsUpTo s x := by
  have hv : s'.v = s.v := Vector.ext fun k hk => h.reg_eq ⟨k, hk⟩
  simp only [regsUpTo, hv]

theorem AgreeExcept.spriteInBounds_eq (h : AgreeExcept unreadParts s s') (n : Nat) :
    spriteInBounds s' n = spriteInBounds s n := by
  simp only [spriteInBounds, h.effAddr_eq]

theorem AgreeExcept.spriteRows_eq (h : AgreeExcept unreadParts s s') (n : Nat) :
    spriteRows s' n = spriteRows s n := by
  simp only [spriteRows, Memory.readBytes, h.effAddr_eq, h.read_eq]

/-! ### No instruction reads the two parts -/

/-- Two results are next states that agree in every part an instruction can read. -/
def NextAgree (r r' : Result) : Prop := ∃ t t', r = .next t ∧ r' = .next t' ∧ AgreeExcept unreadParts t t'

theorem AgreeExcept.next (h : AgreeExcept unreadParts s s') : NextAgree (.next s) (.next s') :=
  ⟨s, s', rfl, rfl, h⟩

theorem AgreeExcept.takeFault (h : AgreeExcept unreadParts s s') (f : Fault) :
    NextAgree (takeFault f s) (takeFault f s') :=
  (h.raise f).next

/-- A skip on the same condition. -/
theorem AgreeExcept.skipIf (h : AgreeExcept unreadParts s s') (c : Bool) :
    NextAgree (.next (s.skipIf c)) (.next (s'.skipIf c)) := by
  rw [State.skipIf_eq, State.skipIf_eq, h.pc_eq]
  exact (h.setPc _).next

theorem AgreeExcept.execCall (h : AgreeExcept unreadParts s s') (nnn : Addr12) :
    NextAgree (execCall nnn s) (execCall nnn s') := by
  simp only [Machine.execCall, State.push, h.sp_eq, h.stack_eq, h.pc_eq]
  by_cases hlt : s.sp.val < Config.stackDepth
  · simp only [hlt, dite_true]
    exact ((h.setStack _ _).setPc _).next
  · simp only [hlt, dite_false]
    exact h.takeFault _

theorem AgreeExcept.execRet (h : AgreeExcept unreadParts s s') : NextAgree (execRet s) (execRet s') := by
  by_cases h0 : s.sp.val = 0
  · have h0' : s'.sp.val = 0 := by rw [h.sp_eq, h0]
    simp only [Machine.execRet, (State.pop_eq_none _).2 h0, (State.pop_eq_none _).2 h0']
    exact h.takeFault _
  · obtain ⟨k, hk⟩ := Nat.exists_eq_succ_of_ne_zero h0
    have hk' : s'.sp.val = k + 1 := by rw [h.sp_eq, hk]
    have hlt : k < 16 := by have := s.sp.isLt; simp only [Config.stackDepth] at this; omega
    simp only [Machine.execRet, State.pop_of_succ s k hk hlt, State.pop_of_succ s' k hk' hlt, h.stack_eq]
    exact ((h.setStack _ _).setPc _).next

theorem AgreeExcept.execDrw (h : AgreeExcept unreadParts s s') (x y : Reg) (n : Nibble) :
    NextAgree (execDrw x y n s) (execDrw x y n s') := by
  simp only [Machine.execDrw, h.spriteInBounds_eq, h.spriteRows_eq, h.reg_eq, h.fb_eq]
  split
  · exact ((h.setDisplay _).setReg _ _).next
  · exact h.takeFault _

theorem AgreeExcept.execLdB (h : AgreeExcept unreadParts s s') (x : Reg) :
    NextAgree (execLdB x s) (execLdB x s') := by
  simp only [Machine.execLdB, h.effAddr_eq, h.reg_eq]
  split
  · exact (h.writeBytes _ _).next
  · exact h.takeFault _

theorem AgreeExcept.execDump (h : AgreeExcept unreadParts s s') (x : Reg) :
    NextAgree (execDump x s) (execDump x s') := by
  simp only [Machine.execDump, h.effAddr_eq, h.regsUpTo_eq]
  split
  · exact (h.writeBytes _ _).next
  · exact h.takeFault _

theorem AgreeExcept.execLoad (h : AgreeExcept unreadParts s s') (x : Reg) :
    NextAgree (execLoad x s) (execLoad x s') := by
  simp only [Machine.execLoad, h.effAddr_eq, h.read_eq]
  split
  · exact (h.setRegsUpTo _ _).next
  · exact h.takeFault _

theorem AgreeExcept.execSkp (h : AgreeExcept unreadParts s s') (x : Reg) :
    NextAgree (execSkp x s) (execSkp x s') := by
  simp only [Machine.execSkp, h.keyNumber_eq, h.keys_eq]
  split
  · exact h.takeFault _
  · exact h.skipIf _

theorem AgreeExcept.execSknp (h : AgreeExcept unreadParts s s') (x : Reg) :
    NextAgree (execSknp x s) (execSknp x s') := by
  simp only [Machine.execSknp, h.keyNumber_eq, h.keys_eq]
  split
  · exact h.takeFault _
  · exact h.skipIf _

theorem AgreeExcept.execLdVxK (h : AgreeExcept unreadParts s s') (x : Reg) :
    NextAgree (execLdVxK x s) (execLdVxK x s') := by
  simp only [Machine.execLdVxK, State.retreatPc, h.keys_eq, h.pc_eq]
  split
  · exact (h.setPc _).next
  · exact (h.setReg _ _).next

/-- Each instruction computes what it writes from values on which the two states agree, and writes the
same to both. -/
theorem AgreeExcept.exec (h : AgreeExcept unreadParts s s') (i : Instr) :
    NextAgree (exec i s) (exec i s') := by
  have hreg := h.reg_eq
  cases i with
  | cls => exact (h.setDisplay _).next
  | ret => exact h.execRet
  | jp nnn => exact (h.setPc _).next
  | call nnn => exact h.execCall nnn
  | seImm x nn => simpa only [Machine.exec, execSeImm, hreg] using h.skipIf _
  | sneImm x nn => simpa only [Machine.exec, execSneImm, hreg] using h.skipIf _
  | seReg x y => simpa only [Machine.exec, execSeReg, hreg] using h.skipIf _
  | ldImm x nn => exact (h.setReg x nn).next
  | addImm x nn => simpa only [Machine.exec, execAddImm, hreg] using (h.setReg x _).next
  | ldReg x y => simpa only [Machine.exec, execLdReg, hreg] using (h.setReg x _).next
  | orReg x y => simpa only [Machine.exec, execOrReg, hreg] using (h.setReg x _).next
  | andReg x y => simpa only [Machine.exec, execAndReg, hreg] using (h.setReg x _).next
  | xorReg x y => simpa only [Machine.exec, execXorReg, hreg] using (h.setReg x _).next
  | addReg x y => simpa only [Machine.exec, execAddReg, hreg] using (h.setRegFlag x _ _).next
  | subReg x y => simpa only [Machine.exec, execSubReg, hreg] using (h.setRegFlag x _ _).next
  | shr x y => simpa only [Machine.exec, execShr, hreg] using (h.setRegFlag x _ _).next
  | subnReg x y => simpa only [Machine.exec, execSubnReg, hreg] using (h.setRegFlag x _ _).next
  | shl x y => simpa only [Machine.exec, execShl, hreg] using (h.setRegFlag x _ _).next
  | sneReg x y => simpa only [Machine.exec, execSneReg, hreg] using h.skipIf _
  | ldI nnn => exact (h.setI _).next
  | jpV0 nnn => simpa only [Machine.exec, execJpV0, offsetTarget, hreg] using (h.setPc _).next
  | rnd x nn => simpa only [Machine.exec, execRnd, h.rnd_eq] using (h.drawRnd.setReg x _).next
  | drw x y n => exact h.execDrw x y n
  | skp x => exact h.execSkp x
  | sknp x => exact h.execSknp x
  | ldVxDt x => simpa only [Machine.exec, execLdVxDt, h.dt_eq] using (h.setReg x _).next
  | ldVxK x => exact h.execLdVxK x
  | ldDtVx x => simpa only [Machine.exec, execLdDtVx, hreg] using (h.setDt _).next
  | ldStVx x => simpa only [Machine.exec, execLdStVx, hreg] using (h.setSt _).next
  | addI x => simpa only [Machine.exec, execAddI, h.i_eq, hreg] using (h.setI _).next
  | ldF x => simpa only [Machine.exec, execLdF, hreg] using (h.setI _).next
  | ldB x => exact h.execLdB x
  | dump x => exact h.execDump x
  | load x => exact h.execLoad x

end

/-- Settles O52: by `AgreeExcept.exec`, which goes through the instructions one by one. -/
theorem soundTimerAndDrawFlagAreNeverRead : Obligations.SoundTimerAndDrawFlagAreNeverRead := by
  intro i s s' t t' h ht ht'
  obtain ⟨u, u', hu, hu', hagree⟩ := AgreeExcept.exec h i
  cases ht.symm.trans hu
  cases ht'.symm.trans hu'
  exact hagree

/-! ### The keypad's, the renderer's and the timer's events -/

/-- Settles O43: a step whose next event is scheduled is that event, on the schedule's rest. -/
theorem keysAndAcknowledgeEvents : Obligations.KeysAndAcknowledgeEvents := by
  intro s keys es
  refine ⟨fun h => ?_, fun h => ?_, fun h => step_eq_applyEvent h⟩
  · exact ⟨_, step_eq_applyEvent h, rfl, rfl, (setSchedule_frame s es).comp (setKeys_frame _ keys)⟩
  · exact ⟨_, step_eq_applyEvent h, rfl, rfl, (setSchedule_frame s es).comp (drawAck_frame _)⟩

/-! ### Program load -/

theorem loadImage_of_halted {s : State} (bytes : List Byte) (h : s.halted = true) :
    loadImage bytes s = s := by
  simp [loadImage, h]

theorem loadImage_of_fits {s : State} {bytes : List Byte} (h : Running s) (hlen : bytes.length ≤ 3584) :
    loadImage bytes s = s.setMem (s.mem.writeBytes Config.progBase bytes) := by
  have hhalted : s.halted = false := h
  have hfits : ¬ Config.progBase + bytes.length > Config.memSize := by
    simp only [Config.progBase, Config.memSize]; omega
  simp only [loadImage, hhalted, Bool.false_eq_true, if_false, if_neg hfits]

theorem loadImage_of_tooLong {s : State} {bytes : List Byte} (h : Running s)
    (hlen : bytes.length > 3584) : loadImage bytes s = raise .romTooLarge s := by
  have hhalted : s.halted = false := h
  have hlong : Config.progBase + bytes.length > Config.memSize := by
    simp only [Config.progBase, Config.memSize]; omega
  simp only [loadImage, hhalted, Bool.false_eq_true, if_false, if_pos hlong]

/-- Fault entry from a state is a fault taken, with the fault's code and no other change (R205). -/
theorem faultTaken_raise (f : Fault) (s : State) : FaultTaken f.code.toNat [] s (raise f s) :=
  ⟨rfl, rfl, raise_frame f s⟩

/-- Settles O44: by the three cases of `loadImage`; the image's bytes by `Memory.read_writeBytes`. -/
theorem loadPlacesImage : Obligations.LoadPlacesImage := by
  intro s bytes es
  refine ⟨fun h => step_eq_applyEvent h, fun hrun hlen => ?_, fun hrun hlen => ?_,
    loadImage_of_halted bytes⟩
  · rw [loadImage_of_fits hrun hlen]
    exact ⟨setMem_frame s _, Memory.read_writeBytes bytes s.mem Config.progBase⟩
  · rw [loadImage_of_tooLong hrun hlen]
    exact faultTaken_raise .romTooLarge s

end Sys2Proof.Machine
end

section
/-! What each instruction writes of the state (spec/10_state.md R20 to R36): the parts it names and no
other, the registers and flags it leaves, and the bounds on `I`, `PC` and the stack that every step keeps. -/

namespace Sys2Proof.Machine

/-! ### What is true of the state that a result answers -/

/-- `P` holds of the next state that `r` answers. -/
def NextHas (r : Result) (P : State → Prop) : Prop := ∀ t, r = .next t → P t

theorem nextHas_next {P : State → Prop} {u : State} (h : P u) : NextHas (.next u) P := by
  intro t ht
  cases ht
  exact h

/-! ### Bounds and flags of the values that instructions write -/

theorem zext16_le (nnn : Addr12) : (zext16 nnn).toNat ≤ 0xFFF := by
  rw [zext16_toNat]
  exact Nat.le_of_lt_succ nnn.isLt

theorem mask12_le (w : Word) : (mask12 w).toNat ≤ 0xFFF := by
  rw [mask12_toNat]
  omega

theorem byteToWord_mul_five_le (b : Byte) : (byteToWord b * 5).toNat ≤ 0xFFF := by
  rw [byteToWord_mul_five_toNat]
  have := b.isLt
  omega

theorem flagByte_le (b : Bool) : (flagByte b).toNat ≤ 1 := by cases b <;> decide

theorem flagByte_carry_toNat (a b : Byte) :
    (flagByte (carry a b)).toNat = if a.toNat + b.toNat > 255 then 1 else 0 := by
  simp only [flagByte_toNat, carry, decide_eq_true_eq]

theorem flagByte_strictlyGreater_toNat (a b : Byte) :
    (flagByte (strictlyGreater a b)).toNat = if a.toNat > b.toNat then 1 else 0 := by
  simp only [flagByte_toNat, strictlyGreater, decide_eq_true_eq]

theorem flagByte_lowBit_toNat (a : Byte) : (flagByte (lowBit a)).toNat = a.toNat % 2 := by
  simp only [flagByte_toNat, lowBit, BitVec.getLsbD, Nat.testBit_zero, decide_eq_true_eq]
  split <;> omega

theorem flagByte_topBit_toNat (a : Byte) : (flagByte (topBit a)).toNat = a.toNat / 128 := by
  have := a.isLt
  simp only [flagByte_toNat, topBit, BitVec.getLsbD, Nat.testBit_eq_decide_div_mod_eq, decide_eq_true_eq]
  split <;> omega

theorem addByte_toNat (a b : Byte) : (addByte a b).toNat = (a.toNat + b.toNat) % 256 :=
  BitVec.toNat_ofNat ..

theorem subByte_toNat (a b : Byte) :
    (subByte a b).toNat = if a.toNat < b.toNat then a.toNat + 256 - b.toNat else a.toNat - b.toNat := by
  have ha := a.isLt
  have hb := b.isLt
  rw [subByte, BitVec.toNat_ofNat]
  split <;> omega

theorem shiftRight1_toNat (a : Byte) : (shiftRight1 a).toNat = a.toNat / 2 := by
  have := a.isLt
  rw [shiftRight1, BitVec.toNat_ofNat]
  omega

theorem shiftLeft1_toNat (a : Byte) : (shiftLeft1 a).toNat = a.toNat * 2 % 256 :=
  BitVec.toNat_ofNat ..

/-- The 16-bit addition to `pc` does not wrap at any address an instruction is run at (R27, R28). -/
theorem add_two_toNat {w : Word} (h : w.toNat ≤ 0x1000) : (w + 2).toNat = w.toNat + 2 := by
  have htwo : (2 : Word).toNat = 2 := rfl
  rw [BitVec.toNat_add, htwo]
  omega

/-! ### Which registers an update can change -/

/-- The registers after a result and a flag: the flag wins when `x` is `F` (R24). -/
theorem State.reg_setRegFlag_toNat (s : State) (x r : Reg) (a f : Byte) :
    ((s.setRegFlag x a f).reg r).toNat =
      if r = 0xF then f.toNat else if r = x then a.toNat else (s.reg r).toNat := by
  rw [State.reg_setRegFlag]
  split
  · rfl
  · split <;> rfl

theorem State.reg_setRegFlag_VF (s : State) (x : Reg) (a f : Byte) :
    (s.setRegFlag x a f).reg VF = f := by
  rw [State.reg_setRegFlag, if_pos rfl]

theorem eq_of_setReg_changed {s : State} {x r : Reg} {b : Byte} (h : (s.setReg x b).reg r ≠ s.reg r) :
    r = x := by
  by_contra hr
  rw [State.reg_setReg, if_neg hr] at h
  exact h rfl

theorem eq_or_eq_of_setRegFlag_changed {s : State} {x r : Reg} {a f : Byte}
    (h : (s.setRegFlag x a f).reg r ≠ s.reg r) : r = x ∨ r = VF := by
  by_contra hr
  obtain ⟨hx, hf⟩ := not_or.1 hr
  rw [State.reg_setRegFlag, if_neg hf, if_neg hx] at h
  exact h rfl

theorem le_of_setRegsUpTo_changed {s : State} {x r : Reg} {f : Nat → Byte}
    (h : (s.setRegsUpTo x f).reg r ≠ s.reg r) : r ≤ x := by
  by_contra hr
  rw [State.reg_setRegsUpTo, if_neg hr] at h
  exact h rfl

theorem eq_of_drawn_changed {s : State} {x y r : Reg} {n : Nibble} (h : (drawn x y n s).reg r ≠ s.reg r) :
    r = VF :=
  eq_of_setReg_changed h

theorem drawn_reg_VF_le (x y : Reg) (n : Nibble) (s : State) : ((drawn x y n s).reg VF).toNat ≤ 1 := by
  rw [drawn, State.reg_setReg_self]
  exact flagByte_le _

/-! ### The parts of the state that an instruction writes -/

/-- The parts of the state that an instruction can write, its fault entry included. -/
def writtenParts (i : Instr) : List Part :=
  match i with
  | .cls => [.fb, .drawPending]
  | .ret | .call _ => [.pc, .stack, .fault]
  | .jp _ | .jpV0 _ | .seImm _ _ | .sneImm _ _ | .seReg _ _ | .sneReg _ _ => [.pc]
  | .skp _ | .sknp _ => [.pc, .fault]
  | .ldImm _ _ | .addImm _ _ | .ldReg _ _ | .orReg _ _ | .andReg _ _ | .xorReg _ _ | .addReg _ _
  | .subReg _ _ | .shr _ _ | .subnReg _ _ | .shl _ _ | .ldVxDt _ => [.v]
  | .rnd _ _ => [.v, .draws]
  | .drw _ _ _ => [.v, .fb, .drawPending, .fault]
  | .ldVxK _ => [.v, .pc]
  | .ldDtVx _ => [.dt]
  | .ldStVx _ => [.st]
  | .ldI _ | .addI _ | .ldF _ => [.i]
  | .ldB _ | .dump _ => [.mem, .fault]
  | .load _ => [.v, .fault]

theorem skipIf_frame (s : State) (c : Bool) : Frame [.pc] s (s.skipIf c) := by
  rw [State.skipIf_eq]
  exact setPc_frame s _

theorem drawn_frame (x y : Reg) (n : Nibble) (s : State) :
    Frame [.v, .fb, .drawPending] s (drawn x y n s) :=
  (setDisplay_frame s _).comp (setReg_frame _ VF _)

theorem setStack_setPc_frame (s : State) (stack : Vector Word Config.stackDepth)
    (sp : Fin (Config.stackDepth + 1)) (w : Word) :
    Frame [.pc, .stack] s (State.setPc { s with stack := stack, sp := sp } w) :=
  (setStack_frame s stack sp).comp (setPc_frame _ w)

/-- THE FRAME OF AN INSTRUCTION: it changes the parts it writes and no other. -/
theorem exec_frame (i : Instr) (s : State) : NextHas (exec i s) (Frame (writtenParts i) s) := by
  cases i with
  | cls => exact nextHas_next (setDisplay_frame s _)
  | jp nnn => exact nextHas_next (setPc_frame s _)
  | jpV0 nnn => exact nextHas_next (setPc_frame s _)
  | seImm x nn => exact nextHas_next (skipIf_frame s _)
  | sneImm x nn => exact nextHas_next (skipIf_frame s _)
  | seReg x y => exact nextHas_next (skipIf_frame s _)
  | sneReg x y => exact nextHas_next (skipIf_frame s _)
  | ldImm x nn => exact nextHas_next (setReg_frame s x _)
  | addImm x nn => exact nextHas_next (setReg_frame s x _)
  | ldReg x y => exact nextHas_next (setReg_frame s x _)
  | orReg x y => exact nextHas_next (setReg_frame s x _)
  | andReg x y => exact nextHas_next (setReg_frame s x _)
  | xorReg x y => exact nextHas_next (setReg_frame s x _)
  | ldVxDt x => exact nextHas_next (setReg_frame s x _)
  | addReg x y => exact nextHas_next (setRegFlag_frame s x _ _)
  | subReg x y => exact nextHas_next (setRegFlag_frame s x _ _)
  | shr x y => exact nextHas_next (setRegFlag_frame s x _ _)
  | subnReg x y => exact nextHas_next (setRegFlag_frame s x _ _)
  | shl x y => exact nextHas_next (setRegFlag_frame s x _ _)
  | rnd x nn => exact nextHas_next ((drawRnd_frame s).comp (setReg_frame _ x _))
  | ldDtVx x => exact nextHas_next (setDt_frame s _)
  | ldStVx x => exact nextHas_next (setSt_frame s _)
  | ldI nnn => exact nextHas_next (setI_frame s _)
  | addI x => exact nextHas_next (setI_frame s _)
  | ldF x => exact nextHas_next (setI_frame s _)
  | ret =>
    intro t ht
    obtain ⟨k, hk, -, rfl⟩ | ⟨-, rfl⟩ := exec_ret_cases ht
    · exact (setStack_setPc_frame s _ _ _).mono (by simp [writtenParts])
    · exact (raise_frame _ s).mono (by simp [writtenParts])
  | call nnn =>
    intro t ht
    obtain ⟨hlt, rfl⟩ | ⟨-, rfl⟩ := exec_call_cases ht
    · exact (setStack_setPc_frame s _ _ _).mono (by simp [writtenParts])
    · exact (raise_frame _ s).mono (by simp [writtenParts])
  | skp x =>
    intro t ht
    obtain ⟨-, rfl⟩ | ⟨-, rfl⟩ := exec_skp_cases ht
    · exact (skipIf_frame s _).mono (by simp [writtenParts])
    · exact (raise_frame _ s).mono (by simp [writtenParts])
  | sknp x =>
    intro t ht
    obtain ⟨-, rfl⟩ | ⟨-, rfl⟩ := exec_sknp_cases ht
    · exact (skipIf_frame s _).mono (by simp [writtenParts])
    · exact (raise_frame _ s).mono (by simp [writtenParts])
  | drw x y n =>
    intro t ht
    obtain ⟨-, rfl⟩ | ⟨-, -, rfl⟩ := exec_drw_cases ht
    · exact (drawn_frame x y n s).mono (by simp [writtenParts])
    · exact (raise_frame _ s).mono (by simp [writtenParts])
  | ldVxK x =>
    intro t ht
    obtain ⟨-, rfl⟩ | ⟨k, -, -, rfl⟩ := exec_ldVxK_cases ht
    · exact (setPc_frame s _).mono (by simp [writtenParts])
    · exact (setReg_frame s x _).mono (by simp [writtenParts])
  | ldB x =>
    intro t ht
    obtain ⟨-, rfl⟩ | ⟨-, rfl⟩ := exec_ldB_cases ht
    · exact (setMem_frame s _).mono (by simp [writtenParts])
    · exact (raise_frame _ s).mono (by simp [writtenParts])
  | dump x =>
    intro t ht
    obtain ⟨-, rfl⟩ | ⟨-, rfl⟩ := exec_dump_cases ht
    · exact (setMem_frame s _).mono (by simp [writtenParts])
    · exact (raise_frame _ s).mono (by simp [writtenParts])
  | load x =>
    intro t ht
    obtain ⟨-, rfl⟩ | ⟨-, rfl⟩ := exec_load_cases ht
    · exact (setRegsUpTo_frame s x _).mono (by simp [writtenParts])
    · exact (raise_frame _ s).mono (by simp [writtenParts])

/-- A part that an instruction changed is one that it writes. -/
theorem mem_writtenParts_of_changed {i : Instr} {s t : State} {p : Part} (ht : exec i s = .next t)
    (h : ¬ p.same s t) : p ∈ writtenParts i := by
  by_contra hp
  exact h (exec_frame i s t ht p hp)

/-! ### Each part's writers -/

theorem i_mem_writtenParts {i : Instr} (h : Part.i ∈ writtenParts i) :
    (∃ nnn, i = .ldI nnn) ∨ (∃ x, i = .addI x) ∨ ∃ x, i = .ldF x := by
  cases i <;> simp [writtenParts] at h ⊢

theorem dt_mem_writtenParts {i : Instr} (h : Part.dt ∈ writtenParts i) : ∃ x, i = .ldDtVx x := by
  cases i <;> simp [writtenParts] at h ⊢

theorem st_mem_writtenParts {i : Instr} (h : Part.st ∈ writtenParts i) : ∃ x, i = .ldStVx x := by
  cases i <;> simp [writtenParts] at h ⊢

theorem stack_mem_writtenParts {i : Instr} (h : Part.stack ∈ writtenParts i) :
    i = .ret ∨ ∃ nnn, i = .call nnn := by
  cases i <;> simp [writtenParts] at h ⊢

theorem draws_mem_writtenParts {i : Instr} (h : Part.draws ∈ writtenParts i) :
    ∃ x nn, i = .rnd x nn := by
  cases i <;> simp [writtenParts] at h ⊢

theorem keys_notMem_writtenParts (i : Instr) : Part.keys ∉ writtenParts i := by
  cases i <;> simp [writtenParts]

theorem schedule_notMem_writtenParts (i : Instr) : Part.schedule ∉ writtenParts i := by
  cases i <;> simp [writtenParts]

theorem pc_notMem_writtenParts {i : Instr} (h : straightLine i) : Part.pc ∉ writtenParts i := by
  cases i <;> simp [writtenParts, straightLine] at h ⊢

/-! ### The rules about the whole instruction set -/

/-- Each writer of `I` leaves at most 0xFFF there. -/
theorem exec_index_le {i : Instr} (hi : Part.i ∈ writtenParts i) (s : State) :
    NextHas (exec i s) fun t => t.i.toNat ≤ 0xFFF := by
  obtain ⟨nnn, rfl⟩ | ⟨x, rfl⟩ | ⟨x, rfl⟩ := i_mem_writtenParts hi
  · exact nextHas_next (zext16_le nnn)
  · exact nextHas_next (mask12_le _)
  · exact nextHas_next (byteToWord_mul_five_le _)

/-- Settles O48: the writers by the frame of `exec`, the bound by the value each of them writes. -/
theorem onlyThreeInstructionsWriteIndex : Obligations.OnlyThreeInstructionsWriteIndex := by
  intro i s t ht hne
  have hi := mem_writtenParts_of_changed (p := .i) ht hne
  exact ⟨i_mem_writtenParts hi, exec_index_le hi s t ht⟩

/-- Every instruction changes only registers that it names. -/
theorem exec_registers (i : Instr) (s : State) :
    NextHas (exec i s) fun t => ∀ r : Reg, t.reg r ≠ s.reg r → writesReg i r := by
  cases i with
  | ldImm x nn => exact nextHas_next fun r => eq_of_setReg_changed
  | addImm x nn => exact nextHas_next fun r => eq_of_setReg_changed
  | ldReg x y => exact nextHas_next fun r => eq_of_setReg_changed
  | orReg x y => exact nextHas_next fun r => eq_of_setReg_changed
  | andReg x y => exact nextHas_next fun r => eq_of_setReg_changed
  | xorReg x y => exact nextHas_next fun r => eq_of_setReg_changed
  | ldVxDt x => exact nextHas_next fun r => eq_of_setReg_changed
  | rnd x nn => exact nextHas_next fun r => eq_of_setReg_changed (s := s.drawRnd)
  | addReg x y => exact nextHas_next fun r => eq_or_eq_of_setRegFlag_changed
  | subReg x y => exact nextHas_next fun r => eq_or_eq_of_setRegFlag_changed
  | shr x y => exact nextHas_next fun r => eq_or_eq_of_setRegFlag_changed
  | subnReg x y => exact nextHas_next fun r => eq_or_eq_of_setRegFlag_changed
  | shl x y => exact nextHas_next fun r => eq_or_eq_of_setRegFlag_changed
  | drw x y n =>
    intro t ht r hne
    obtain ⟨-, rfl⟩ | ⟨-, -, rfl⟩ := exec_drw_cases ht
    · exact eq_of_drawn_changed hne
    · exact absurd rfl hne
  | ldVxK x =>
    intro t ht r hne
    obtain ⟨-, rfl⟩ | ⟨k, -, -, rfl⟩ := exec_ldVxK_cases ht
    · exact absurd rfl hne
    · exact eq_of_setReg_changed hne
  | load x =>
    intro t ht r hne
    obtain ⟨-, rfl⟩ | ⟨-, rfl⟩ := exec_load_cases ht
    · exact le_of_setRegsUpTo_changed hne
    · exact absurd rfl hne
  | _ => exact fun t ht r hne => absurd (exec_frame _ s t ht .v (by simp [writtenParts]) r) hne

/-- Settles O49: by `exec_registers`. -/
theorem registersChangeOnlyWhereNamed : Obligations.RegistersChangeOnlyWhereNamed :=
  fun i s t ht r hne => exec_registers i s t ht r hne

/-- Settles O50: no straight-line instruction writes `pc`. -/
theorem straightLineKeepsPc : Obligations.StraightLineKeepsPc :=
  fun i s t hi ht => exec_frame i s t ht .pc (pc_notMem_writtenParts hi)

/-- Settles O51: each clause is the frame of `exec` at one part. -/
theorem keysTimersAndStackHaveFewWriters : Obligations.KeysTimersAndStackHaveFewWriters := by
  intro i s t ht
  have hframe := exec_frame i s t ht
  refine ⟨hframe .keys (keys_notMem_writtenParts i), hframe .schedule (schedule_notMem_writtenParts i),
    fun h => ?_, fun h => ?_, fun h => ?_, fun h => ?_⟩
  · exact dt_mem_writtenParts (mem_writtenParts_of_changed (p := .dt) ht h)
  · exact st_mem_writtenParts (mem_writtenParts_of_changed (p := .st) ht h)
  · exact stack_mem_writtenParts (mem_writtenParts_of_changed ht h)
  · exact draws_mem_writtenParts (mem_writtenParts_of_changed (p := .draws) ht h)

theorem setRegFlag_flagByte_VF_le (s : State) (x : Reg) (a : Byte) (b : Bool) :
    ((s.setRegFlag x a (flagByte b)).reg 0xF).toNat ≤ 1 := by
  rw [State.reg_setRegFlag_VF]
  exact flagByte_le b

/-- The flag is written last, so `VF` holds a `flagByte` whatever the destination is (R24). -/
theorem exec_flag_le {i : Instr} (hi : writesFlag i) (s : State) :
    NextHas (exec i s) fun t => t.halted = false → (t.reg 0xF).toNat ≤ 1 := by
  cases i with
  | addReg x y => exact nextHas_next fun _ => setRegFlag_flagByte_VF_le s x _ _
  | subReg x y => exact nextHas_next fun _ => setRegFlag_flagByte_VF_le s x _ _
  | shr x y => exact nextHas_next fun _ => setRegFlag_flagByte_VF_le s x _ _
  | subnReg x y => exact nextHas_next fun _ => setRegFlag_flagByte_VF_le s x _ _
  | shl x y => exact nextHas_next fun _ => setRegFlag_flagByte_VF_le s x _ _
  | drw x y n =>
    intro t ht hrun
    obtain ⟨-, rfl⟩ | ⟨-, -, rfl⟩ := exec_drw_cases ht
    · exact drawn_reg_VF_le x y n s
    · cases hrun
  | _ => exact hi.elim

/-- Settles O27: by `exec_flag_le`. -/
theorem flagWritersLeaveZeroOrOne : Obligations.FlagWritersLeaveZeroOrOne :=
  fun _ s t hi _ ht hrun => exec_flag_le hi s t ht hrun

/-! ### The flag-writing arithmetic (R135 to R139) -/

/-- Settles O23. -/
theorem addSetsCarry : Obligations.AddSetsCarry := by
  intro x y s
  refine ⟨_, rfl, setRegFlag_frame s x _ _, fun r => ?_⟩
  rw [State.reg_setRegFlag_toNat, flagByte_carry_toNat, addByte_toNat]

/-- Settles O24. -/
theorem subtractionsSetStrictlyGreater : Obligations.SubtractionsSetStrictlyGreater := by
  intro x y s
  refine ⟨⟨_, rfl, setRegFlag_frame s x _ _, fun r => ?_⟩, ⟨_, rfl, setRegFlag_frame s x _ _, fun r => ?_⟩⟩
  · rw [State.reg_setRegFlag_toNat, flagByte_strictlyGreater_toNat, subByte_toNat]
  · rw [State.reg_setRegFlag_toNat, flagByte_strictlyGreater_toNat, subByte_toNat]

/-- Settles O25. -/
theorem shiftRightKeepsLowBitInFlag : Obligations.ShiftRightKeepsLowBitInFlag := by
  intro x y s
  refine ⟨_, rfl, setRegFlag_frame s x _ _, fun r => ?_⟩
  rw [State.reg_setRegFlag_toNat, flagByte_lowBit_toNat, shiftRight1_toNat]

/-- Settles O26. -/
theorem shiftLeftKeepsTopBitInFlag : Obligations.ShiftLeftKeepsTopBitInFlag := by
  intro x y s
  refine ⟨_, rfl, setRegFlag_frame s x _ _, fun r => ?_⟩
  rw [State.reg_setRegFlag_toNat, flagByte_topBit_toNat, shiftLeft1_toNat]

/-! ### Call, return and the fetch bound -/

theorem exec_call_of_lt (nnn : Addr12) {s : State} (h : s.sp.val < 16) :
    exec (.call nnn) s = .next (State.setPc { s with stack := s.stack.set s.sp.val s.pc h,
                                                     sp := ⟨s.sp.val + 1, Nat.succ_lt_succ h⟩ }
      (zext16 nnn)) := by
  simp only [exec, execCall, State.push_of_lt s s.pc h]

theorem exec_call_of_full (nnn : Addr12) {s : State} (h : s.sp.val = 16) :
    exec (.call nnn) s = .next (raise .stackOverflow s) := by
  simp only [exec, execCall, (State.push_eq_none s s.pc).2 h, takeFault]

theorem exec_ret_of_succ {s : State} {k : Nat} (h : s.sp.val = k + 1) (hk : k < 16) :
    exec .ret s = .next (State.setPc { s with sp := ⟨k, Nat.lt_succ_of_lt hk⟩ } s.stack[k]) := by
  simp only [exec, execRet, State.pop_of_succ s k h hk]

theorem exec_ret_of_empty {s : State} (h : s.sp.val = 0) :
    exec .ret s = .next (raise .stackUnderflow s) := by
  simp only [exec, execRet, (State.pop_eq_none s).2 h, takeFault]

/-- Settles O16: the two cases of the depth, by what `push` answers in each. -/
theorem callPushesReturnAddress : Obligations.CallPushesReturnAddress := by
  intro nnn s
  refine ⟨fun hlt => ?_, fun hfull => ?_⟩
  · refine ⟨_, exec_call_of_lt nnn hlt, rfl, fun k => ?_, zext16_toNat nnn, setStack_setPc_frame s _ _ _⟩
    simp only [State.setPc_stack, Fin.getElem_fin, Vector.getElem_set, eq_comm]
  · exact ⟨_, exec_call_of_full nnn hfull, faultTaken_raise .stackOverflow s⟩

/-- Settles O17: the two cases of the depth, by what `pop` answers in each. -/
theorem retPopsReturnAddress : Obligations.RetPopsReturnAddress := by
  intro s
  refine ⟨fun k hk => ?_, fun hempty => ?_⟩
  · exact ⟨_, exec_ret_of_succ hk k.isLt, rfl, rfl, fun _ => rfl, setStack_setPc_frame s s.stack _ _⟩
  · exact ⟨_, exec_ret_of_empty hempty, faultTaken_raise .stackUnderflow s⟩

theorem cycle_of_pc_ge {s : State} (hrun : Running s) (hpc : 0xFFF ≤ s.pc.toNat) :
    cycle s = .next (raise .outOfBounds s) := by
  have hhalted : s.halted = false := hrun
  simp only [cycle, hhalted, Bool.false_eq_true, if_false, State.fetch_eq_none.2 hpc, takeFault]

/-- Settles O7: the cycle stops at the fetch, on the state whose schedule has lost the event. -/
theorem fetchPastMemoryTakesOutOfBounds : Obligations.FetchPastMemoryTakesOutOfBounds := by
  intro s hnext hrun hpc
  have hstep : step s = .next (raise .outOfBounds (taken s)) :=
    (step_eq_cycle hnext).trans (cycle_of_pc_ge (s := taken s) hrun hpc)
  exact ⟨_, hstep, ⟨rfl, rfl, (setSchedule_frame s _).comp (raise_frame _ _)⟩, rfl⟩

/-! ### Reset -/

@[simp] theorem State.reset_reg (r : Reg) : State.reset.reg r = 0 := by
  simp [State.reg, State.reset]

theorem length_font : font.length = 80 := rfl

theorem Memory.unlisted_of_ge {a : Nat} (h : 0x50 ≤ a) : Memory.unlisted a = 0 := by
  have hbase : Config.fontBase ≤ a := Nat.zero_le a
  rw [Memory.unlisted, if_pos hbase]
  exact List.getD_eq_default _ _ (by rwa [length_font])

/-- Settles O45: the registers, the pixels and the bytes above the font by a law each, the rest by
evaluating the reset state. -/
theorem resetSetsEveryPiece : Obligations.ResetSetsEveryPiece := by
  intro s es hs
  refine ⟨_, step_eq_applyEvent hs, rfl, fun r => State.reset_reg r, rfl, rfl, rfl, rfl,
    fun idx _ => Display.pixel_clear idx, rfl, rfl, rfl, rfl, ?_, ?_, ?_, ?_,
    fun a ha => Memory.unlisted_of_ge ha, rfl, rfl⟩
  · rfl
  · rfl
  · rfl
  · rfl

/-- Settles O53: no byte is listed, no stack entry is live, and every bounded piece is evaluated. -/
theorem resetMeetsInvariant : Obligations.ResetMeetsInvariant where
  memory := Memory.wf_reset
  index := by decide
  pc := by decide
  stack k hk := absurd hk (Nat.not_lt_zero _)
  cause := by decide
  code := by decide

/-! ### The invariant under each update -/

theorem Fault.code_ne_zero (f : Fault) : f.code ≠ 0 := by cases f <;> decide

theorem Fault.code_le (f : Fault) : f.code.toNat ≤ 6 := by cases f <;> decide

namespace Invariant

variable {s : State}

/-- The registers are under no bound, so every write to them keeps the invariant. -/
theorem setV (h : Invariant s) (v : Vector Byte 16) : Invariant { s with v := v } := { h with }

theorem setDt (h : Invariant s) (b : Byte) : Invariant (s.setDt b) := { h with }

theorem setSt (h : Invariant s) (b : Byte) : Invariant (s.setSt b) := { h with }

theorem setDisplay (h : Invariant s) (d : Display) : Invariant (s.setDisplay d) := { h with }

theorem drawRnd (h : Invariant s) : Invariant s.drawRnd := { h with }

theorem setSchedule (h : Invariant s) (es : List Event) : Invariant (s.setSchedule es) := { h with }

theorem tick (h : Invariant s) : Invariant (tick s) := { h with }

theorem setKeys (h : Invariant s) (keys : BitVec 16) : Invariant (setKeys keys s) := { h with }

theorem drawAck (h : Invariant s) : Invariant (drawAck s) := { h with }

theorem setI (h : Invariant s) {w : Word} (hw : w.toNat ≤ 0xFFF) : Invariant (s.setI w) :=
  { h with index := hw }

theorem setPc (h : Invariant s) {w : Word} (hw : w.toNat ≤ 0x1002) : Invariant (s.setPc w) :=
  { h with pc := hw }

theorem writeBytes (h : Invariant s) {a : Nat} {bytes : List Byte} (ha : a + bytes.length ≤ 0x1000) :
    Invariant (s.setMem (s.mem.writeBytes a bytes)) :=
  { h with memory := Memory.wf_writeBytes bytes s.mem a h.memory ha }

/-- Fault entry halts the core and records a listed code (R205, R36). -/
theorem raise (h : Invariant s) (f : Fault) : Invariant (raise f s) :=
  { h with cause := iff_of_true rfl f.code_ne_zero, code := f.code_le }

/-- A pushed entry is live, and so is every entry that was. -/
theorem push (h : Invariant s) (hlt : s.sp.val < 16) {w : Word} (hw : w.toNat ≤ 0x1000) :
    Invariant { s with stack := s.stack.set s.sp.val w hlt, sp := ⟨s.sp.val + 1, Nat.succ_lt_succ hlt⟩ } where
  __ := h
  stack k hk := by
    simp only [Fin.getElem_fin, Vector.getElem_set]
    split
    · exact hw
    · next hne => exact h.stack k (by simp only at hk; omega)

/-- What a pop leaves live was live. -/
theorem pop (h : Invariant s) {k : Nat} (hk : k < 16) (hsp : s.sp.val = k + 1) :
    Invariant { s with sp := ⟨k, Nat.lt_succ_of_lt hk⟩ } :=
  { h with stack := fun j hj => h.stack j (by simp only at hj; omega) }

theorem top_le (h : Invariant s) {k : Nat} (hk : k < 16) (hsp : s.sp.val = k + 1) :
    s.stack[k].toNat ≤ 0x1000 :=
  h.stack ⟨k, hk⟩ (by rw [hsp]; exact Nat.lt_succ_self k)

theorem skipIf (h : Invariant s) (hpc : s.pc.toNat ≤ 0x1000) (c : Bool) : Invariant (s.skipIf c) := by
  cases c with
  | true => exact h.setPc ((add_two_toNat hpc).trans_le (by omega))
  | false => exact h

end Invariant

/-! ### The invariant under each instruction and each event -/

/-- An instruction keeps the invariant when `pc` is the address after a fetched word: at least 2, so that
`Fx0A` can go back, and at most 0x1000, so that a skip stays at 0x1002 or below and a CALL pushes an
address a RET may take (R28, R101). -/
theorem Invariant.exec {s : State} (h : Invariant s) (hlow : 2 ≤ s.pc.toNat)
    (hhigh : s.pc.toNat ≤ 0x1000) (i : Instr) : NextHas (exec i s) Invariant := by
  cases i with
  | cls => exact nextHas_next (h.setDisplay _)
  | jp nnn => exact nextHas_next (h.setPc ((zext16_le nnn).trans (by decide)))
  | jpV0 nnn => exact nextHas_next (h.setPc ((mask12_le _).trans (by decide)))
  | seImm x nn => exact nextHas_next (h.skipIf hhigh _)
  | sneImm x nn => exact nextHas_next (h.skipIf hhigh _)
  | seReg x y => exact nextHas_next (h.skipIf hhigh _)
  | sneReg x y => exact nextHas_next (h.skipIf hhigh _)
  | ldImm x nn => exact nextHas_next (h.setV _)
  | addImm x nn => exact nextHas_next (h.setV _)
  | ldReg x y => exact nextHas_next (h.setV _)
  | orReg x y => exact nextHas_next (h.setV _)
  | andReg x y => exact nextHas_next (h.setV _)
  | xorReg x y => exact nextHas_next (h.setV _)
  | ldVxDt x => exact nextHas_next (h.setV _)
  | addReg x y => exact nextHas_next (h.setV _)
  | subReg x y => exact nextHas_next (h.setV _)
  | shr x y => exact nextHas_next (h.setV _)
  | subnReg x y => exact nextHas_next (h.setV _)
  | shl x y => exact nextHas_next (h.setV _)
  | rnd x nn => exact nextHas_next (h.drawRnd.setV _)
  | ldDtVx x => exact nextHas_next (h.setDt _)
  | ldStVx x => exact nextHas_next (h.setSt _)
  | ldI nnn => exact nextHas_next (h.setI (zext16_le nnn))
  | addI x => exact nextHas_next (h.setI (mask12_le _))
  | ldF x => exact nextHas_next (h.setI (byteToWord_mul_five_le _))
  | ret =>
    intro t ht
    obtain ⟨k, hk, hsp, rfl⟩ | ⟨-, rfl⟩ := exec_ret_cases ht
    · exact (h.pop hk hsp).setPc ((h.top_le hk hsp).trans (by decide))
    · exact h.raise _
  | call nnn =>
    intro t ht
    obtain ⟨hlt, rfl⟩ | ⟨-, rfl⟩ := exec_call_cases ht
    · exact (h.push hlt hhigh).setPc ((zext16_le nnn).trans (by decide))
    · exact h.raise _
  | skp x =>
    intro t ht
    obtain ⟨-, rfl⟩ | ⟨-, rfl⟩ := exec_skp_cases ht
    · exact h.skipIf hhigh _
    · exact h.raise _
  | sknp x =>
    intro t ht
    obtain ⟨-, rfl⟩ | ⟨-, rfl⟩ := exec_sknp_cases ht
    · exact h.skipIf hhigh _
    · exact h.raise _
  | drw x y n =>
    intro t ht
    obtain ⟨-, rfl⟩ | ⟨-, -, rfl⟩ := exec_drw_cases ht
    · exact (h.setDisplay _).setV _
    · exact h.raise _
  | ldVxK x =>
    intro t ht
    obtain ⟨-, rfl⟩ | ⟨k, -, -, rfl⟩ := exec_ldVxK_cases ht
    · refine h.setPc ?_
      rw [BitVec.toNat_sub_of_le hlow]
      exact (Nat.sub_le _ _).trans h.pc
    · exact h.setV _
  | ldB x =>
    intro t ht
    obtain ⟨hv, rfl⟩ | ⟨-, rfl⟩ := exec_ldB_cases ht
    · exact h.writeBytes (by rw [length_bcdDigits]; simp only [effAddr] at hv ⊢; omega)
    · exact h.raise _
  | dump x =>
    intro t ht
    obtain ⟨hv, rfl⟩ | ⟨-, rfl⟩ := exec_dump_cases ht
    · exact h.writeBytes (by rw [length_regsUpTo]; simp only [effAddr] at hv ⊢; omega)
    · exact h.raise _
  | load x =>
    intro t ht
    obtain ⟨-, rfl⟩ | ⟨-, rfl⟩ := exec_load_cases ht
    · exact h.setV _
    · exact h.raise _

theorem Invariant.advancePc {s : State} (h : Invariant s) (hpc : s.pc.toNat ≤ 0xFFE) :
    Invariant s.advancePc :=
  h.setPc ((add_two_toNat (by omega)).trans_le (by omega))

theorem Invariant.cycle {s : State} (h : Invariant s) : NextHas (cycle s) Invariant := by
  intro t ht
  obtain ⟨-, rfl⟩ | ⟨-, -, rfl⟩ | ⟨-, hpc, rfl⟩ | ⟨i, -, hpc, hi⟩ := cycle_cases ht
  · exact h
  · exact h.raise _
  · exact (h.advancePc hpc).raise _
  · have hnext : s.advancePc.pc.toNat = s.pc.toNat + 2 := add_two_toNat (by omega)
    exact (h.advancePc hpc).exec (by omega) (by omega) i t hi

theorem Invariant.loadImage {s : State} (h : Invariant s) (bytes : List Byte) :
    Invariant (loadImage bytes s) := by
  by_cases hhalted : s.halted = true
  · rw [loadImage_of_halted bytes hhalted]
    exact h
  have hrun : Running s := Bool.eq_false_iff.2 hhalted
  by_cases hlen : bytes.length ≤ 3584
  · rw [loadImage_of_fits hrun hlen]
    exact h.writeBytes (by simp only [Config.progBase]; omega)
  · rw [loadImage_of_tooLong hrun (by omega)]
    exact h.raise _

theorem invariant_resetEvent (s : State) : Invariant (resetEvent s) := { resetMeetsInvariant with }

theorem Invariant.applyEvent {s : State} (h : Invariant s) (e : Event) :
    NextHas (applyEvent e s) Invariant := by
  cases e with
  | step => exact h.cycle
  | tick => exact nextHas_next h.tick
  | setKeys keys => exact nextHas_next (h.setKeys keys)
  | drawAck => exact nextHas_next h.drawAck
  | load bytes => exact nextHas_next (h.loadImage bytes)
  | reset => exact nextHas_next (invariant_resetEvent s)

/-- Settles O54: a step is an instruction cycle or the scheduled event, and each keeps the invariant. -/
theorem everyStepKeepsInvariant : Obligations.EveryStepKeepsInvariant := by
  intro s t h ht
  cases hs : s.schedule with
  | nil =>
    rw [step_eq_cycle (.inl (by rw [hs]; rfl))] at ht
    exact (h.setSchedule _).cycle t ht
  | cons e es =>
    rw [step_eq_applyEvent hs] at ht
    exact (h.setSchedule es).applyEvent e t ht

end Sys2Proof.Machine
end

section
/-! Which bytes of memory an instruction can change (spec/20_memory.md R51, R54; spec/44_index_and_memory.md
R154, R155). -/

namespace Sys2Proof.Machine

theorem mem_mem_writtenParts {i : Instr} (h : Part.mem ∈ writtenParts i) :
    (∃ x, i = .ldB x) ∨ ∃ x, i = .dump x := by
  cases i <;> simp [writtenParts] at h ⊢

theorem mem_range_of_writeBytes_changed {m : Memory} {a b : Nat} {bytes : List Byte}
    (h : (m.writeBytes a bytes).read b ≠ m.read b) : a ≤ b ∧ b < a + bytes.length := by
  by_contra hb
  rw [Memory.read_writeBytes, if_neg hb] at h
  exact h rfl

/-- A byte that `Fx33` changed holds one of the three digits. -/
theorem exec_ldB_changed_byte (x : Reg) (s : State) :
    NextHas (exec (.ldB x) s) fun t => ∀ a : Nat, t.mem.read a ≠ s.mem.read a →
      s.i.toNat ≤ a ∧ a < s.i.toNat + 3 ∧ a ≤ 0xFFF := by
  intro t ht a hne
  obtain ⟨hvalid, rfl⟩ | ⟨-, rfl⟩ := exec_ldB_cases ht
  · obtain ⟨hlow, hhigh⟩ := mem_range_of_writeBytes_changed hne
    rw [length_bcdDigits] at hhigh
    simp only [effAddr] at hvalid hlow hhigh
    omega
  · exact absurd rfl hne

/-- A byte that `Fx55` changed holds one of the registers `V[0..x]`. -/
theorem exec_dump_changed_byte (x : Reg) (s : State) :
    NextHas (exec (.dump x) s) fun t => ∀ a : Nat, t.mem.read a ≠ s.mem.read a →
      s.i.toNat ≤ a ∧ a ≤ s.i.toNat + x.val ∧ a ≤ 0xFFF := by
  intro t ht a hne
  obtain ⟨hvalid, rfl⟩ | ⟨-, rfl⟩ := exec_dump_cases ht
  · obtain ⟨hlow, hhigh⟩ := mem_range_of_writeBytes_changed hne
    rw [length_regsUpTo] at hhigh
    simp only [effAddr] at hvalid hlow hhigh
    omega
  · exact absurd rfl hne

/-- Settles O47: the writers by the frame of `exec`, the range by the bytes each of them writes. -/
theorem onlyBcdAndDumpWriteMemory : Obligations.OnlyBcdAndDumpWriteMemory := by
  intro i s t ht a hne
  have hmem := mem_writtenParts_of_changed (p := .mem) ht fun hsame => hne (hsame a)
  obtain ⟨x, rfl⟩ | ⟨x, rfl⟩ := mem_mem_writtenParts hmem
  · obtain ⟨hlow, hhigh, hvalid⟩ := exec_ldB_changed_byte x s t ht a hne
    exact ⟨.inl ⟨x, rfl, hlow, hhigh⟩, hvalid⟩
  · obtain ⟨hlow, hhigh, hvalid⟩ := exec_dump_changed_byte x s t ht a hne
    exact ⟨.inr ⟨x, rfl, hlow, hhigh⟩, hvalid⟩

end Sys2Proof.Machine
end

section
/-! The decoder and the encoder are inverse to each other, the opcode map of spec/30_encoding.md R88 selects
as the decoder decodes, and the words that the decoder rejects are those of R90. -/

namespace Sys2Proof

/-! ### Decoding an encoded instruction (R80, R82, R88) -/

/-- The decoder reads back every operand from its field, one group of instructions per format and class. -/
theorem decodeWord_encode (i : Instr) : decodeWord (encode i) = .ok i := by
  cases i with
  | cls | ret => rfl
  | jp nnn | call nnn | ldI nnn | jpV0 nnn => simp [encode, decodeWord]
  | seImm x nn | sneImm x nn | ldImm x nn | addImm x nn | rnd x nn => simp [encode, decodeWord]
  | seReg x y | sneReg x y => simp [encode, decodeWord]
  | drw x y n => simp [encode, decodeWord]
  | ldReg x y | orReg x y | andReg x y | xorReg x y | addReg x y | subReg x y | shr x y | subnReg x y
  | shl x y => simp [encode, decodeWord, decodeClass8]
  | skp x | sknp x => simp [encode, decodeWord, decodeClassE]
  | ldVxDt x | ldVxK x | ldDtVx x | ldStVx x | addI x | ldF x | ldB x | dump x | load x =>
    simp [encode, decodeWord, decodeClassF]

theorem decode_encodeBytes_append (i : Instr) (rest : List Byte) :
    decode (encodeBytes i ++ rest) = .ok (i, rest) := by
  simp [encodeBytes, decode, wordOfBytes_bytes, decodeWord_encode]

/-- Settles O1: the fields of an encoded word are the operands, and its two bytes are the word. -/
theorem encodeThenDecodeReturnsInstruction : Obligations.EncodeThenDecodeReturnsInstruction :=
  fun i rest => ⟨decodeWord_encode i, decode_encodeBytes_append i rest⟩

/-! ### Encoding a decoded word (R81, R88, R91) -/

section
variable {w : Word} {op : Nibble}

/-- A word of class `op` is that class in front of its own address field. -/
theorem encodeNNN_of_op (hop : opOf w = op) : encodeNNN op (nnnOf w) = w := by
  rw [← hop]
  exact encodeNNN_fields w

theorem encodeXNN_of_op {nn : Byte} (hop : opOf w = op) (hnn : nnOf w = nn) :
    encodeXNN op (xOf w) nn = w := by
  rw [← hop, ← hnn]
  exact encodeXNN_fields w

theorem encodeXYN_of_op {n : Nibble} (hop : opOf w = op) (hn : nOf w = n) :
    encodeXYN op (xOf w) (yOf w) n = w := by
  rw [← hop, ← hn]
  exact encodeXYN_fields w

end

/-- `w` is the word of the instruction, if any, that `r` answers. -/
def EncodesTo (w : Word) (r : Except Reject Instr) : Prop := ∀ i : Instr, r = .ok i → encode i = w

section
variable {w : Word}

theorem encodesTo_ok {i : Instr} (h : encode i = w) : EncodesTo w (.ok i) := by
  intro j hj
  cases hj
  exact h

theorem encodesTo_error (e : Reject) : EncodesTo w (.error e) := by
  intro j hj
  cases hj

/-- One test of a secondary dispatch: the instruction it selects, or the tests after it. -/
theorem encodesTo_ite {c : Prop} [Decidable c] {i : Instr} {r : Except Reject Instr}
    (hc : c → encode i = w) (hr : EncodesTo w r) : EncodesTo w (if c then .ok i else r) := by
  split
  · next h => exact encodesTo_ok (hc h)
  · exact hr

theorem encodesTo_decodeClass0 (w : Word) : EncodesTo w (decodeClass0 w) :=
  encodesTo_ite Eq.symm (encodesTo_ite Eq.symm (encodesTo_error _))

theorem encodesTo_decodeClass8 (hop : opOf w = 0x8) : EncodesTo w (decodeClass8 w) := by
  unfold decodeClass8
  split
  case h_10 => exact encodesTo_error _
  all_goals exact encodesTo_ok (encodeXYN_of_op hop (BitVec.eq_of_toNat_eq ‹_›))

theorem encodesTo_decodeClassE (hop : opOf w = 0xE) : EncodesTo w (decodeClassE w) :=
  encodesTo_ite (encodeXNN_of_op hop) (encodesTo_ite (encodeXNN_of_op hop) (encodesTo_error _))

theorem encodesTo_decodeClassF (hop : opOf w = 0xF) : EncodesTo w (decodeClassF w) := by
  unfold decodeClassF
  iterate 9 refine encodesTo_ite (encodeXNN_of_op hop) ?_
  exact encodesTo_error _

/-- Each class of the primary dispatch keeps every bit of the word in the fields of its format. The branch
`h_(k+1)` of the dispatch is class `k`. -/
theorem encodesTo_decodeWord (w : Word) : EncodesTo w (decodeWord w) := by
  have hlt : (opOf w).toNat < 16 := (opOf w).isLt
  unfold decodeWord
  split
  case h_1 => exact encodesTo_decodeClass0 w
  case h_2 hop | h_3 hop | h_11 hop | h_12 hop =>
    exact encodesTo_ok (encodeNNN_of_op (BitVec.eq_of_toNat_eq hop))
  case h_4 hop | h_5 hop | h_7 hop | h_8 hop | h_13 hop =>
    exact encodesTo_ok (encodeXNN_of_op (BitVec.eq_of_toNat_eq hop) rfl)
  case h_6 hop | h_10 hop =>
    exact encodesTo_ite (encodeXYN_of_op (BitVec.eq_of_toNat_eq hop)) (encodesTo_error _)
  case h_9 hop => exact encodesTo_decodeClass8 (BitVec.eq_of_toNat_eq hop)
  case h_14 hop => exact encodesTo_ok (encodeXYN_of_op (BitVec.eq_of_toNat_eq hop) rfl)
  case h_15 hop => exact encodesTo_decodeClassE (BitVec.eq_of_toNat_eq hop)
  case h_16 =>
    have hop : (opOf w).toNat = 15 := by grind
    exact encodesTo_decodeClassF (BitVec.eq_of_toNat_eq hop)

end

/-- Settles O2: by the format of each class of words. -/
theorem decodeThenEncodeReturnsWord : Obligations.DecodeThenEncodeReturnsWord := encodesTo_decodeWord

/-- THE DECODER IS THE INVERSE OF THE ENCODER: a word decodes to the instruction whose word it is. -/
theorem decodeWord_eq_ok_iff {w : Word} {i : Instr} : decodeWord w = .ok i ↔ encode i = w := by
  constructor
  · exact encodesTo_decodeWord w i
  · rintro rfl
    exact decodeWord_encode i

/-! ### Words selected by a row of the opcode map (R87, R88) -/

section
variable {w : Word} {op : Nibble}
open Laws.EncodesToRow

theorem opOf_of_and_class (h : w &&& 0xF000 = encodeNNN op 0) : opOf w = op := by
  rw [← encodeNNN_fields w, encodeNNN_and_class] at h
  simpa using congrArg opOf h

theorem fields_of_and_byte {nn : Byte} (h : w &&& 0xF0FF = encodeXNN op 0 nn) :
    opOf w = op ∧ nnOf w = nn := by
  rw [← encodeXNN_fields w, encodeXNN_and_sub] at h
  exact ⟨by simpa using congrArg opOf h, by simpa using congrArg nnOf h⟩

theorem fields_of_and_nibble {n : Nibble} (h : w &&& 0xF00F = encodeXYN op 0 0 n) :
    opOf w = op ∧ nOf w = n := by
  rw [← encodeXYN_fields w, encodeXYN_and_sub] at h
  exact ⟨by simpa using congrArg opOf h, by simpa using congrArg nOf h⟩

theorem encodeNNN_of_selected (h : w &&& 0xF000 = encodeNNN op 0) : encodeNNN op (nnnOf w) = w :=
  encodeNNN_of_op (opOf_of_and_class h)

theorem encodeXNN_of_selected (h : w &&& 0xF000 = encodeNNN op 0) :
    encodeXNN op (xOf w) (nnOf w) = w :=
  encodeXNN_of_op (opOf_of_and_class h) rfl

theorem encodeXYN_of_selected (h : w &&& 0xF000 = encodeNNN op 0) :
    encodeXYN op (xOf w) (yOf w) (nOf w) = w :=
  encodeXYN_of_op (opOf_of_and_class h) rfl

theorem encodeXNN_of_selected_byte {nn : Byte} (h : w &&& 0xF0FF = encodeXNN op 0 nn) :
    encodeXNN op (xOf w) nn = w := by
  obtain ⟨hop, hnn⟩ := fields_of_and_byte h
  exact encodeXNN_of_op hop hnn

theorem encodeXYN_of_selected_nibble {n : Nibble} (h : w &&& 0xF00F = encodeXYN op 0 0 n) :
    encodeXYN op (xOf w) (yOf w) n = w := by
  obtain ⟨hop, hn⟩ := fields_of_and_nibble h
  exact encodeXYN_of_op hop hn

end

/-- The instruction of the same row with the fields of `w` as its operands. -/
def Instr.withFieldsOf (i : Instr) (w : Word) : Instr :=
  match i with
  | .cls => .cls
  | .ret => .ret
  | .jp _ => .jp (nnnOf w)
  | .call _ => .call (nnnOf w)
  | .seImm _ _ => .seImm (xOf w) (nnOf w)
  | .sneImm _ _ => .sneImm (xOf w) (nnOf w)
  | .seReg _ _ => .seReg (xOf w) (yOf w)
  | .ldImm _ _ => .ldImm (xOf w) (nnOf w)
  | .addImm _ _ => .addImm (xOf w) (nnOf w)
  | .ldReg _ _ => .ldReg (xOf w) (yOf w)
  | .orReg _ _ => .orReg (xOf w) (yOf w)
  | .andReg _ _ => .andReg (xOf w) (yOf w)
  | .xorReg _ _ => .xorReg (xOf w) (yOf w)
  | .addReg _ _ => .addReg (xOf w) (yOf w)
  | .subReg _ _ => .subReg (xOf w) (yOf w)
  | .shr _ _ => .shr (xOf w) (yOf w)
  | .subnReg _ _ => .subnReg (xOf w) (yOf w)
  | .shl _ _ => .shl (xOf w) (yOf w)
  | .sneReg _ _ => .sneReg (xOf w) (yOf w)
  | .ldI _ => .ldI (nnnOf w)
  | .jpV0 _ => .jpV0 (nnnOf w)
  | .rnd _ _ => .rnd (xOf w) (nnOf w)
  | .drw _ _ _ => .drw (xOf w) (yOf w) (nOf w)
  | .skp _ => .skp (xOf w)
  | .sknp _ => .sknp (xOf w)
  | .ldVxDt _ => .ldVxDt (xOf w)
  | .ldVxK _ => .ldVxK (xOf w)
  | .ldDtVx _ => .ldDtVx (xOf w)
  | .ldStVx _ => .ldStVx (xOf w)
  | .addI _ => .addI (xOf w)
  | .ldF _ => .ldF (xOf w)
  | .ldB _ => .ldB (xOf w)
  | .dump _ => .dump (xOf w)
  | .load _ => .load (xOf w)

@[simp] theorem Instr.opRow_withFieldsOf (i : Instr) (w : Word) : (i.withFieldsOf w).opRow = i.opRow := by
  cases i <;> rfl

/-- A word that the row of `i` selects is the word of the instruction of that row with its fields. -/
theorem encode_withFieldsOf {w : Word} {i : Instr} (h : w &&& i.opRow.mask = i.opRow.value) :
    encode (i.withFieldsOf w) = w := by
  cases i with
  | cls | ret => exact h.symm.trans (BitVec.and_allOnes (x := w))
  | jp nnn | call nnn | ldI nnn | jpV0 nnn => exact encodeNNN_of_selected h
  | seImm x nn | sneImm x nn | ldImm x nn | addImm x nn | rnd x nn => exact encodeXNN_of_selected h
  | drw x y n => exact encodeXYN_of_selected h
  | seReg x y | sneReg x y | ldReg x y | orReg x y | andReg x y | xorReg x y | addReg x y | subReg x y
  | shr x y | subnReg x y | shl x y => exact encodeXYN_of_selected_nibble h
  | skp x | sknp x | ldVxDt x | ldVxK x | ldDtVx x | ldStVx x | addI x | ldF x | ldB x | dump x
  | load x => exact encodeXNN_of_selected_byte h

section
open Laws.EncodesToRow

/-- The word of every instruction is selected by its own row: the per-instruction lemmas together. -/
theorem encodesToRow (i : Instr) : Statement i :=
  match i with
  | .cls => cls | .ret => ret
  | .jp nnn => jp nnn | .call nnn => call nnn | .ldI nnn => ldI nnn | .jpV0 nnn => jpV0 nnn
  | .seImm x nn => seImm x nn | .sneImm x nn => sneImm x nn | .ldImm x nn => ldImm x nn
  | .addImm x nn => addImm x nn | .rnd x nn => rnd x nn
  | .seReg x y => seReg x y | .sneReg x y => sneReg x y | .ldReg x y => ldReg x y
  | .orReg x y => orReg x y | .andReg x y => andReg x y | .xorReg x y => xorReg x y
  | .addReg x y => addReg x y | .subReg x y => subReg x y | .subnReg x y => subnReg x y
  | .shr x y => shr x y | .shl x y => shl x y
  | .drw x y n => drw x y n
  | .skp x => skp x | .sknp x => sknp x
  | .ldVxDt x => ldVxDt x | .ldVxK x => ldVxK x | .ldDtVx x => ldDtVx x | .ldStVx x => ldStVx x
  | .addI x => addI x | .ldF x => ldF x | .ldB x => ldB x | .dump x => dump x | .load x => load x

end

/-- A row of the opcode map selects exactly the words that decode to an instruction of that row. -/
theorem selected_iff_decodes {w : Word} {r : OpRow} (hr : r ∈ opcodeMap) :
    w &&& r.mask = r.value ↔ ∃ i : Instr, decodeWord w = .ok i ∧ i.opRow = r := by
  obtain ⟨k, -, rfl⟩ := List.mem_map.1 hr
  constructor
  · intro h
    exact ⟨k.withFieldsOf w, decodeWord_eq_ok_iff.2 (encode_withFieldsOf h), k.opRow_withFieldsOf w⟩
  · rintro ⟨i, hi, hrow⟩
    rw [← decodeWord_eq_ok_iff.1 hi, ← hrow]
    exact (encodesToRow i).1

/-- Settles O3: rows do not overlap, because a word decodes to one instruction and that is of one row. -/
theorem decoderFollowsOpcodeMap : Obligations.DecoderFollowsOpcodeMap := by
  refine ⟨rfl, fun w r hr => selected_iff_decodes hr, fun w r r' hr hr' h h' => ?_⟩
  obtain ⟨i, hi, rfl⟩ := (selected_iff_decodes hr).1 h
  obtain ⟨i', hi', rfl⟩ := (selected_iff_decodes hr').1 h'
  cases hi.symm.trans hi'
  rfl

/-! ### The illegal words (R89, R90) -/

/-- `r` is a rejection. -/
def Rejected (r : Except Reject Instr) : Prop := ∃ e : Reject, r = .error e

@[simp] theorem not_rejected_ok (i : Instr) : ¬ Rejected (.ok i) := by simp [Rejected]

@[simp] theorem rejected_error (e : Reject) : Rejected (.error e) := ⟨e, rfl⟩

@[simp] theorem rejected_ite {c : Prop} [Decidable c] {i : Instr} {r : Except Reject Instr} :
    Rejected (if c then .ok i else r) ↔ ¬ c ∧ Rejected r := by
  split <;> simp [*]

theorem opOf_toNat (w : Word) : (opOf w).toNat = w.toNat / 4096 := by
  have := w.isLt
  simp only [opOf, BitVec.extractLsb'_toNat, Nat.shiftRight_eq_div_pow]
  omega

theorem nOf_toNat (w : Word) : (nOf w).toNat = w.toNat % 16 := by
  simp only [nOf, BitVec.extractLsb'_toNat, Nat.shiftRight_zero]

theorem nnOf_toNat (w : Word) : (nnOf w).toNat = w.toNat % 256 := by
  simp only [nnOf, BitVec.extractLsb'_toNat, Nat.shiftRight_zero]

theorem rejected_decodeClass0_iff (w : Word) :
    Rejected (decodeClass0 w) ↔ w.toNat ≠ 0x00E0 ∧ w.toNat ≠ 0x00EE := by
  simp [decodeClass0, BitVec.toNat_eq]

theorem rejected_decodeClass8_iff (w : Word) :
    Rejected (decodeClass8 w) ↔ w.toNat % 16 ∈ [0x8, 0x9, 0xA, 0xB, 0xC, 0xD, 0xF] := by
  rw [← nOf_toNat]
  unfold decodeClass8
  have hlt : (nOf w).toNat < 16 := (nOf w).isLt
  split
  case h_10 =>
    simp only [rejected_error, true_iff, List.mem_cons, List.not_mem_nil, or_false]
    grind
  all_goals simp [*]

theorem rejected_decodeClassE_iff (w : Word) :
    Rejected (decodeClassE w) ↔ w.toNat % 256 ∉ [0x9E, 0xA1] := by
  simp [decodeClassE, BitVec.toNat_eq, nnOf_toNat]

theorem rejected_decodeClassF_iff (w : Word) :
    Rejected (decodeClassF w) ↔
      w.toNat % 256 ∉ [0x07, 0x0A, 0x15, 0x18, 0x1E, 0x29, 0x33, 0x55, 0x65] := by
  simp [decodeClassF, BitVec.toNat_eq, nnOf_toNat]

/-- Settles O4: per class of words, by what its secondary dispatch rejects; a class without one rejects
nothing. The branch `h_(k+1)` of the dispatch is class `k`. -/
theorem rejectedWordsAreTheIllegalOnes : Obligations.RejectedWordsAreTheIllegalOnes := by
  intro w
  have hlt : (opOf w).toNat < 16 := (opOf w).isLt
  rw [← opOf_toNat]
  change Rejected (decodeWord w) ↔ _
  unfold decodeWord
  split
  case h_1 hop => simp [hop, rejected_decodeClass0_iff]
  case h_6 hop | h_10 hop => simp [hop, BitVec.toNat_eq, nOf_toNat]
  case h_9 hop => simp [hop, rejected_decodeClass8_iff]
  case h_15 hop => simp [hop, rejected_decodeClassE_iff]
  case h_16 =>
    have hop : (opOf w).toNat = 15 := by grind
    simp [hop, rejected_decodeClassF_iff]
  all_goals simp [*]

/-! ### Sample words -/

/-- Settles O5: the decoder runs on each word. -/
theorem sampleWordsDecodeAsWritten : Obligations.SampleWordsDecodeAsWritten :=
  ⟨rfl, rfl, rfl, rfl, rfl, rfl, rfl, rfl, rfl, rfl, rfl, rfl⟩

end Sys2Proof
end

section
/-! One step of the machine: it always answers a next state, it runs the instruction decoded at `PC`, and in
the halted core it does nothing (spec/30_encoding.md R84, spec/60_exceptions.md R205). -/

namespace Sys2Proof.Machine

/-! ### Every step answers a next state -/

/-- A state agrees with itself, so `AgreeExcept.exec` says that the instruction answers a next state. -/
theorem exec_answers_next (i : Instr) (s : State) : ∃ t, exec i s = .next t := by
  have hself : AgreeExcept unreadParts s s := Frame.refl unreadParts s
  obtain ⟨t, -, ht, -, -⟩ := hself.exec i
  exact ⟨t, ht⟩

theorem cycle_answers_next (s : State) : ∃ t, cycle s = .next t := by
  unfold cycle
  split
  · exact ⟨s, rfl⟩
  split
  · exact ⟨_, rfl⟩
  split
  · exact ⟨_, rfl⟩
  · exact exec_answers_next _ _

theorem applyEvent_answers_next (e : Event) (s : State) : ∃ t, applyEvent e s = .next t := by
  cases e with
  | step => exact cycle_answers_next s
  | tick | setKeys keys | drawAck | load bytes | reset => exact ⟨_, rfl⟩

/-- Settles O13: a step is an instruction cycle or the scheduled event. -/
theorem everyStepAnswersNext : Obligations.EveryStepAnswersNext := by
  refine ⟨exec_answers_next, fun s => ?_⟩
  cases hs : s.schedule with
  | nil =>
    rw [step_eq_cycle (.inl (by rw [hs]; rfl))]
    exact cycle_answers_next _
  | cons e es =>
    rw [step_eq_applyEvent hs]
    exact applyEvent_answers_next e _

/-! ### The halted core -/

theorem cycle_of_halted {s : State} (h : s.halted = true) : cycle s = .next s := by
  simp [cycle, h]

/-- A step with nothing scheduled is the cycle on the state as it is. -/
theorem step_of_schedule_nil {s : State} (h : s.schedule = []) : step s = cycle s := by
  simp only [step, nextEvent, h]

/-- Settles O9: by induction on the number of steps, each of them the identity. -/
theorem haltedCoreNeverMoves : Obligations.HaltedCoreNeverMoves := by
  intro s k hhalted hsched
  have hstep : core.step s = .next s := (step_of_schedule_nil hsched).trans (cycle_of_halted hhalted)
  induction k with
  | zero => rfl
  | succ k ih => simp only [Host.Core.run, hstep, ih]

/-! ### The decoded instruction -/

theorem cycle_of_decoded {s : State} {i : Instr} (hrun : Running s) (hpc : s.pc.toNat ≤ 0xFFE)
    (hi : decodeWord (wordOfBytes (s.mem.read s.pc.toNat) (s.mem.read (s.pc.toNat + 1))) = .ok i) :
    cycle s = exec i s.advancePc := by
  have hhalted : s.halted = false := hrun
  simp only [cycle, hhalted, Bool.false_eq_true, if_false, State.fetch_of_le hpc, hi]

/-- Settles O6: the cycle on the state whose schedule has lost the event. -/
theorem stepRunsDecodedInstruction : Obligations.StepRunsDecodedInstruction := by
  intro s i hnext hrun hpc hi
  exact (step_eq_cycle hnext).trans (cycle_of_decoded (s := taken s) hrun hpc (decode_two_iff.1 hi))

end Sys2Proof.Machine
end

section
/-! Control transfer (spec/40_control_flow.md): the jumps set `pc` alone, and a CALL to a RET comes back to
the instruction after the CALL. -/

namespace Sys2Proof.Machine

/-! ### The jumps (R102, R104) -/

/-- Settles O14. -/
theorem jumpSetsPc : Obligations.JumpSetsPc :=
  fun nnn s => ⟨_, rfl, zext16_toNat nnn, setPc_frame s _⟩

/-- The 16-bit sum does not wrap (at most 0x10FE), so only the 12-bit mask reduces it. -/
theorem offsetTarget_toNat (s : State) (nnn : Addr12) :
    (offsetTarget s nnn).toNat = (nnn.toNat + (s.reg 0).toNat) % 4096 := by
  rw [offsetTarget, mask12_toNat, BitVec.toNat_add, zext16_toNat, byteToWord_toNat]
  omega

/-- Settles O15: the target by `offsetTarget_toNat`. -/
theorem jumpWithOffsetSetsPc : Obligations.JumpWithOffsetSetsPc :=
  fun nnn s => ⟨_, rfl, offsetTarget_toNat s nnn, setPc_frame s _⟩

/-! ### A step that runs a CALL or a RET -/

/-- `s` is about to run `i`: the core runs, nothing is scheduled, and the two bytes at `PC` are a whole
word in memory that decodes to `i` (R84). -/
structure AboutToRun (i : Instr) (s : State) : Prop where
  running : Running s
  schedule : s.schedule = []
  pc : s.pc.toNat ≤ 0xFFE
  decodes : decode [s.mem.read s.pc.toNat, s.mem.read (s.pc.toNat + 1)] = .ok (i, [])

theorem advancePc_frame (s : State) : Frame [.pc] s s.advancePc := setPc_frame s _

namespace AboutToRun

variable {i : Instr} {s : State}

theorem step_eq_exec (h : AboutToRun i s) : step s = exec i s.advancePc :=
  (step_of_schedule_nil h.schedule).trans
    (cycle_of_decoded h.running h.pc (decode_two_iff.1 h.decodes))

theorem advancePc_pc_toNat (h : AboutToRun i s) : s.advancePc.pc.toNat = s.pc.toNat + 2 :=
  add_two_toNat (h.pc.trans (by decide))

/-- After a change of `pc` and the stack alone, the core is about to run what stands at the new `pc`. -/
theorem of_frame {j : Instr} {t : State} {a : Nat} (h : AboutToRun i s) (hframe : Frame [.pc, .stack] s t)
    (hpc : t.pc.toNat = a) (ha : a ≤ 0xFFE)
    (hj : decode [s.mem.read a, s.mem.read (a + 1)] = .ok (j, [])) : AboutToRun j t := by
  have hmem : ∀ b : Nat, t.mem.read b = s.mem.read b := hframe .mem (by decide)
  have hfault : t.halted = s.halted ∧ t.faultCause = s.faultCause := hframe .fault (by decide)
  have hsched : t.schedule = s.schedule := hframe .schedule (by decide)
  subst hpc
  exact ⟨hfault.1.trans h.running, hsched.trans h.schedule, ha, by rwa [hmem, hmem]⟩

/-- A CALL with room on the stack, as a step: the address after the CALL is pushed (R103). -/
theorem step_call {nnn : Addr12} (h : AboutToRun (.call nnn) s) (hlt : s.sp.val < 16) :
    ∃ t, step s = .next t ∧ t.sp.val = s.sp.val + 1 ∧
      (∀ k : Fin 16, t.stack[k] = if k.val = s.sp.val then s.advancePc.pc else s.stack[k]) ∧
      t.pc.toNat = nnn.toNat ∧ Frame [.pc, .stack] s t := by
  obtain ⟨t, ht, hsp, hstack, hpc, hframe⟩ := (callPushesReturnAddress nnn s.advancePc).1 hlt
  exact ⟨t, h.step_eq_exec.trans ht, hsp, hstack, hpc,
    ((advancePc_frame s).comp hframe).mono (by decide)⟩

/-- A RET with `k + 1` entries on the stack, as a step: `pc` is entry `k` (R101). -/
theorem step_ret (h : AboutToRun .ret s) {k : Fin 16} (hk : s.sp.val = k.val + 1) :
    ∃ t, step s = .next t ∧ t.pc = s.stack[k] ∧ t.sp.val = k.val ∧
      (∀ j : Fin 16, t.stack[j] = s.stack[j]) ∧ Frame [.pc, .stack] s t := by
  obtain ⟨t, ht, hpc, hsp, hstack, hframe⟩ := (retPopsReturnAddress s.advancePc).1 k hk
  exact ⟨t, h.step_eq_exec.trans ht, hpc, hsp, hstack,
    ((advancePc_frame s).comp hframe).mono (by decide)⟩

end AboutToRun

/-- Settles O18: the CALL's step, then the RET's step, which pops the entry the CALL pushed (R105). -/
theorem callThenRetReturnsAfterCall : Obligations.CallThenRetReturnsAfterCall := by
  intro s nnn hrun hsched hpc hnnn hlt hcall hret
  have hs : AboutToRun (.call nnn) s := ⟨hrun, hsched, hpc, hcall⟩
  obtain ⟨t, hst, htsp, htstack, htpc, htframe⟩ := hs.step_call hlt
  have ht : AboutToRun .ret t := hs.of_frame htframe htpc hnnn hret
  obtain ⟨u, htu, hupc, husp, hustack, huframe⟩ := ht.step_ret (k := ⟨s.sp.val, hlt⟩) htsp
  refine ⟨t, u, hst, htsp, htu, ?_, Fin.ext husp, fun k hk => ?_, htframe.trans huframe⟩
  · rw [hupc, htstack, if_pos rfl, hs.advancePc_pc_toNat]
  · rw [hustack, htstack, if_neg hk]

end Sys2Proof.Machine
end

section
/-! The register skips (spec/41_skips.md): a further 2 on `pc` exactly when the condition holds. -/

namespace Sys2Proof.Machine

/-- The addition wraps at 16 bits: no 12-bit mask is applied to `pc` (D8). -/
theorem skipIf_pc_toNat (s : State) (c : Bool) :
    (s.skipIf c).pc.toNat = if c then (s.pc.toNat + 2) % 65536 else s.pc.toNat := by
  rw [State.skipIf_pc]
  cases c with
  | false => rfl
  | true => exact BitVec.toNat_add s.pc 2

theorem skipIf_beq_pc_toNat (s : State) (a b : Byte) :
    (s.skipIf (a == b)).pc.toNat = if a = b then (s.pc.toNat + 2) % 65536 else s.pc.toNat := by
  simp only [skipIf_pc_toNat, beq_iff_eq]

theorem skipIf_bne_pc_toNat (s : State) (a b : Byte) :
    (s.skipIf (a != b)).pc.toNat = if a = b then s.pc.toNat else (s.pc.toNat + 2) % 65536 := by
  simp only [skipIf_pc_toNat, bne_iff_ne, ite_not]

/-- Settles O19: each register skip is a `skipIf` on the equality of two bytes (R111, R113) or on its
negation (R112, R114). -/
theorem registerSkipsMovePcByTwo : Obligations.RegisterSkipsMovePcByTwo := by
  intro x y nn s
  refine ⟨?seImm, ?sneImm, ?seReg, ?sneReg⟩
  case seImm => exact ⟨_, rfl, skipIf_frame s _, skipIf_beq_pc_toNat s _ _⟩
  case sneImm => exact ⟨_, rfl, skipIf_frame s _, skipIf_bne_pc_toNat s _ _⟩
  case seReg => exact ⟨_, rfl, skipIf_frame s _, skipIf_beq_pc_toNat s _ _⟩
  case sneReg => exact ⟨_, rfl, skipIf_frame s _, skipIf_bne_pc_toNat s _ _⟩

end Sys2Proof.Machine
end

section
/-! The immediates and the random byte (spec/42_immediate_and_random.md): each writes `V[x]` alone, and
`VF` is no flag here (R120). -/

namespace Sys2Proof.Machine

/-- The numbers the registers hold after a write to one of them. -/
theorem State.reg_setReg_toNat (s : State) (x r : Reg) (b : Byte) :
    ((s.setReg x b).reg r).toNat = if r = x then b.toNat else (s.reg r).toNat := by
  rw [State.reg_setReg, apply_ite BitVec.toNat]

/-- Settles O20: each is one register write, of `nn` (R121) or of the sum mod 256 (R122). -/
theorem immediateLoadAndAdd : Obligations.ImmediateLoadAndAdd := by
  intro x nn s
  refine ⟨?ldImm, ?addImm⟩
  case ldImm => exact ⟨_, rfl, setReg_frame s x nn, fun r => State.reg_setReg s x r nn⟩
  case addImm =>
    refine ⟨_, rfl, setReg_frame s x _, fun r => ?_⟩
    rw [State.reg_setReg_toNat, addByte_toNat]

/-- A byte masked by `nn` has no bit outside `nn`. -/
theorem and_mask_and_not_mask (a nn : Byte) : a &&& nn &&& ~~~nn = 0 := by
  simp [BitVec.and_assoc]

/-- Settles O21: the draw consumes the random byte, then one register write puts the masked byte (R124). -/
theorem randomIsMaskedByImmediate : Obligations.RandomIsMaskedByImmediate := by
  intro x nn s
  have hframe : Frame [.v, .draws] s (s.drawRnd.setReg x (s.rnd &&& nn)) :=
    (drawRnd_frame s).comp (setReg_frame _ x _)
  refine ⟨_, rfl, hframe, fun r => ?register, ?mask, rfl⟩
  case register => rw [State.reg_setReg, State.drawRnd_reg, State.rnd]
  case mask => rw [State.reg_setReg_self, and_mask_and_not_mask]

end Sys2Proof.Machine
end

section
/-! The move and the logic operations (spec/43_alu.md): each writes `V[x]` alone, and none of them writes
`VF` as a flag (D18). -/

namespace Sys2Proof.Machine

/-- An instruction that answers one register write: what it changes and what the registers then hold. -/
theorem exec_of_setReg {i : Instr} {s : State} {x : Reg} {b : Byte}
    (h : exec i s = .next (s.setReg x b)) :
    ∃ t, exec i s = .next t ∧ Frame [.v] s t ∧ ∀ r : Reg, t.reg r = if r = x then b else s.reg r :=
  ⟨_, h, setReg_frame s x b, fun r => State.reg_setReg s x r b⟩

/-- Settles O22: each is one write of `V[x]` (R131, R132, R133, R134). -/
theorem moveAndLogicLeaveFlagAlone : Obligations.MoveAndLogicLeaveFlagAlone := by
  intro x y s
  refine ⟨?ldReg, ?orReg, ?andReg, ?xorReg⟩
  case ldReg => exact exec_of_setReg rfl
  case orReg => exact exec_of_setReg rfl
  case andReg => exact exec_of_setReg rfl
  case xorReg => exact exec_of_setReg rfl

end Sys2Proof.Machine
end

section
/-! The index register and memory (spec/44_index_and_memory.md): the three writers of `I`, the stores and the
load at `I` with the bound they check first, and a load after a dump. -/

namespace Sys2Proof.Machine

/-! ### The index register (R151, R152, R153) -/

/-- A sum that wraps at 16 bits keeps its low 12 bits, since 4096 divides 65536. -/
theorem mask12_add_byteToWord_toNat (w : Word) (b : Byte) :
    (mask12 (w + byteToWord b)).toNat = (w.toNat + b.toNat) % 4096 := by
  rw [mask12_toNat, BitVec.toNat_add, byteToWord_toNat]
  omega

/-- Settles O28: each is one write of `I`. -/
theorem indexIsSetAddedAndScaled : Obligations.IndexIsSetAddedAndScaled := by
  intro nnn x s
  refine ⟨?ldI, ?addI, ?ldF⟩
  case ldI => exact ⟨_, rfl, setI_frame s _, zext16_toNat nnn⟩
  case addI => exact ⟨_, rfl, setI_frame s _, mask12_add_byteToWord_toNat s.i (s.reg x)⟩
  case ldF => exact ⟨_, rfl, setI_frame s _, byteToWord_mul_five_toNat (s.reg x)⟩

/-! ### The bound that an access at `I` checks first (R150, R207) -/

section
variable {a : Nat} {r r' : Result}

theorem ite_valid_of_le (h : a ≤ 0xFFF) : (if Memory.valid a then r else r') = r :=
  if_pos ((Memory.valid_iff a).2 h)

theorem ite_valid_of_gt (h : a > 0xFFF) : (if Memory.valid a then r else r') = r' :=
  if_neg (mt (Memory.valid_iff a).1 h.not_ge)

end

section
variable {s : State} {x : Reg}

theorem exec_ldB_of_le (h : effAddr s 2 ≤ 0xFFF) :
    exec (.ldB x) s = .next (s.setMem (s.mem.writeBytes (effAddr s 0) (bcdDigits (s.reg x)))) :=
  ite_valid_of_le h

theorem exec_ldB_of_gt (h : effAddr s 2 > 0xFFF) :
    exec (.ldB x) s = .next (raise .outOfBounds s) :=
  ite_valid_of_gt h

theorem exec_dump_of_le (h : effAddr s x.val ≤ 0xFFF) :
    exec (.dump x) s = .next (s.setMem (s.mem.writeBytes (effAddr s 0) (regsUpTo s x))) :=
  ite_valid_of_le h

theorem exec_dump_of_gt (h : effAddr s x.val > 0xFFF) :
    exec (.dump x) s = .next (raise .outOfBounds s) :=
  ite_valid_of_gt h

theorem exec_load_of_le (h : effAddr s x.val ≤ 0xFFF) :
    exec (.load x) s = .next (s.setRegsUpTo x fun k => s.mem.read (effAddr s k)) :=
  ite_valid_of_le h

theorem exec_load_of_gt (h : effAddr s x.val > 0xFFF) :
    exec (.load x) s = .next (raise .outOfBounds s) :=
  ite_valid_of_gt h

end

/-! ### Bytes stored at `I` -/

section
variable {m : Memory} {s : State} {bytes : List Byte} {k : Nat}

theorem read_writeBytes_effAddr (hk : k < bytes.length) :
    (m.writeBytes (effAddr s 0) bytes).read (effAddr s k) = bytes.getD k 0 := by
  have hin : s.i.toNat + 0 ≤ s.i.toNat + k ∧ s.i.toNat + k < s.i.toNat + 0 + bytes.length := by omega
  have hoffset : s.i.toNat + k - (s.i.toNat + 0) = k := by omega
  rw [Memory.read_writeBytes, effAddr, effAddr, if_pos hin, hoffset]

theorem read_writeBytes_outside (hlen : bytes.length = k + 1) {a : Nat}
    (ha : a < effAddr s 0 ∨ effAddr s k < a) :
    (m.writeBytes (effAddr s 0) bytes).read a = m.read a := by
  by_contra hne
  obtain ⟨hlow, hhigh⟩ := mem_range_of_writeBytes_changed hne
  simp only [effAddr] at ha hlow hhigh
  omega

end

theorem byte_toNat_of_lt {n : Nat} (h : n < 256) : (BitVec.ofNat 8 n).toNat = n := by
  rw [BitVec.toNat_ofNat, Nat.mod_eq_of_lt h]

theorem bcdDigits_hundreds (b : Byte) : ((bcdDigits b).getD 0 0).toNat = b.toNat / 100 :=
  byte_toNat_of_lt (by have := b.isLt; omega)

theorem bcdDigits_tens (b : Byte) : ((bcdDigits b).getD 1 0).toNat = b.toNat / 10 % 10 :=
  byte_toNat_of_lt (by omega)

theorem bcdDigits_ones (b : Byte) : ((bcdDigits b).getD 2 0).toNat = b.toNat % 10 :=
  byte_toNat_of_lt (by omega)

/-- Settles O29: the two cases of the bound; within it the three digits are stored at `I`. -/
theorem bcdStoresThreeDigits : Obligations.BcdStoresThreeDigits := by
  intro x s
  refine ⟨fun hle => ?stored, fun hgt => ?fault⟩
  case stored =>
    have hread (k : Nat) (hk : k < 3) :
        (s.mem.writeBytes (effAddr s 0) (bcdDigits (s.reg x))).read (effAddr s k) =
          (bcdDigits (s.reg x)).getD k 0 := read_writeBytes_effAddr hk
    refine ⟨_, exec_ldB_of_le hle, setMem_frame s _, ?_, ?_, ?_, fun a => read_writeBytes_outside rfl⟩
    · exact (congrArg BitVec.toNat (hread 0 (by decide))).trans (bcdDigits_hundreds _)
    · exact (congrArg BitVec.toNat (hread 1 (by decide))).trans (bcdDigits_tens _)
    · exact (congrArg BitVec.toNat (hread 2 (by decide))).trans (bcdDigits_ones _)
  case fault => exact ⟨_, exec_ldB_of_gt hgt, faultTaken_raise .outOfBounds s⟩

/-! ### The register dump and the register load (R155, R156, R157) -/

/-- The byte at `I + r` after a dump of `V[0..x]`. -/
theorem read_writeBytes_regsUpTo (m : Memory) (s : State) {x r : Reg} (hr : r ≤ x) :
    (m.writeBytes (effAddr s 0) (regsUpTo s x)).read (effAddr s r.val) = s.reg r := by
  have hlt : r.val < (regsUpTo s x).length := by
    rw [length_regsUpTo]
    exact Nat.lt_succ_of_le hr
  rw [read_writeBytes_effAddr hlt, getD_regsUpTo s hr]

/-- Settles O30: the two cases of the bound; within it `V[0..x]` is stored at `I`. -/
theorem dumpStoresRegisters : Obligations.DumpStoresRegisters := by
  intro x s
  refine ⟨fun hle => ?stored, fun hgt => ?fault⟩
  case stored =>
    exact ⟨_, exec_dump_of_le hle, setMem_frame s _, fun r => read_writeBytes_regsUpTo s.mem s,
      fun a => read_writeBytes_outside (length_regsUpTo s x)⟩
  case fault => exact ⟨_, exec_dump_of_gt hgt, faultTaken_raise .outOfBounds s⟩

/-- Settles O31: the two cases of the bound; within it `V[0..x]` is one register update. -/
theorem loadFillsRegisters : Obligations.LoadFillsRegisters := by
  intro x s
  refine ⟨fun hle => ?loaded, fun hgt => ?fault⟩
  case loaded =>
    exact ⟨_, exec_load_of_le hle, setRegsUpTo_frame s x _, fun r => State.reg_setRegsUpTo s x r _⟩
  case fault => exact ⟨_, exec_load_of_gt hgt, faultTaken_raise .outOfBounds s⟩

/-- Settles O32: the load reads, at the same addresses, the bytes that the dump stored. -/
theorem dumpThenLoadRestoresRegisters : Obligations.DumpThenLoadRestoresRegisters := by
  intro x s hle
  obtain ⟨t, ht, hframe, hstored, -⟩ := (dumpStoresRegisters x s).1 hle
  have hti : t.i = s.i := hframe .i (by decide)
  refine ⟨t, ht, hti, fun u hui hmem => ?_⟩
  have haddr (k : Nat) : effAddr u k = effAddr s k := by simp only [effAddr, hui, hti]
  obtain ⟨w, hw, -, hloaded⟩ := (loadFillsRegisters x u).1 ((haddr x.val).trans_le hle)
  refine ⟨w, hw, fun r hr => ?_⟩
  calc w.reg r = u.mem.read (effAddr u r.val) := by rw [hloaded, if_pos hr]
    _ = t.mem.read (effAddr s r.val) := by rw [haddr, hmem]
    _ = s.reg r := hstored r hr

end Sys2Proof.Machine
end

section
/-! The display instructions (spec/45_display.md): CLS, and DRW by the pixels that its sprite hits. -/

namespace Sys2Proof.Machine

/-! ### CLS (R171) -/

/-- Settles O33: one display update, to the clear display. -/
theorem clearTurnsEveryPixelOff : Obligations.ClearTurnsEveryPixelOff :=
  fun s => ⟨_, rfl, setDisplay_frame s _, fun idx _ => Display.pixel_clear idx, rfl⟩

/-! ### The bound that DRW checks first (R173, R207) -/

section
variable {x y : Reg} {n : Nibble} {s : State}

theorem exec_drw_of_le (h : n.toNat ≥ 1 → effAddr s (n.toNat - 1) ≤ 0xFFF) :
    exec (.drw x y n) s = .next (drawn x y n s) :=
  if_pos ((spriteInBounds_iff s n.toNat).2 h)

theorem exec_drw_of_gt (hn : n.toNat ≥ 1) (h : effAddr s (n.toNat - 1) > 0xFFF) :
    exec (.drw x y n) s = .next (raise .outOfBounds s) :=
  if_neg fun hin => h.not_ge ((spriteInBounds_iff s n.toNat).1 hin hn)

end

/-- Settles O35: past the bound a draw is fault entry alone (R206). -/
theorem drawPastMemoryTakesOutOfBounds : Obligations.DrawPastMemoryTakesOutOfBounds :=
  fun _ _ _ s hn hgt => ⟨_, exec_drw_of_gt hn hgt, faultTaken_raise .outOfBounds s⟩

/-! ### The pixels that the sprite of a DRW hits (R172) -/

/-- Whether a sprite bit of 1 falls on pixel `idx` when `Dxyn` is executed in `s`. -/
def spriteHits (x y : Reg) (n : Nibble) (s : State) (idx : Nat) : Bool :=
  hitRows (s.reg x).toNat (s.reg y).toNat 0 (spriteRows s n.toNat) idx

theorem spriteRows_eq_map (s : State) (n : Nat) :
    spriteRows s n = (List.range n).map fun r => s.mem.read (effAddr s r) := rfl

/-- A pixel index is a row and a column of the display (R33). -/
theorem exists_pixel_iff {P : Nat → Prop} :
    (∃ idx : Nat, idx < 2048 ∧ P idx) ↔ ∃ px py : Nat, px < 64 ∧ py < 32 ∧ P (py * 64 + px) := by
  constructor
  · rintro ⟨idx, hlt, h⟩
    have hidx : idx / 64 * 64 + idx % 64 = idx := by omega
    exact ⟨idx % 64, idx / 64, by omega, by omega, by rwa [hidx]⟩
  · rintro ⟨px, py, hx, hy, h⟩
    exact ⟨py * 64 + px, by omega, h⟩

section
variable (x y : Reg) (n : Nibble) (s : State)

/-- A sprite has at most 15 rows, fewer than the display, so no two of them share a pixel (R172). -/
theorem length_spriteRows_le : (spriteRows s n.toNat).length ≤ 32 := by
  rw [length_spriteRows]
  have := n.isLt
  omega

/-- The closed form of what is hit, on the sprite bytes written out. -/
theorem spriteHits_eq_covers {px py : Nat} (hx : px < 64) (hy : py < 32) :
    spriteHits x y n s (py * 64 + px) = covers (s.reg x).toNat (s.reg y).toNat
      ((List.range n.toNat).map fun r => s.mem.read (effAddr s r)) px py := by
  rw [← spriteRows_eq_map]
  exact hitRows_eq_covers _ _ _ px py (Nat.le_of_lt_succ (s.reg x).isLt)
    (Nat.le_of_lt_succ (s.reg y).isLt) hx hy (length_spriteRows_le n s)

/-- A DRAW XORS the display with what its sprite hits. -/
theorem drawn_pixel {idx : Nat} (h : idx < 2048) :
    (drawn x y n s).fb.pixel idx = (s.fb.pixel idx ^^ spriteHits x y n s idx) :=
  (blitRows_spec _ _ 0 _ (s.fb, false) (length_spriteRows_le n s)).1 idx h

/-- A DRAW REPORTS A COLLISION exactly when its sprite hits a lit pixel. -/
theorem drawn_reg_VF_iff : ((drawn x y n s).reg VF).toNat = 1 ↔
    ∃ idx : Nat, idx < 2048 ∧ s.fb.pixel idx = true ∧ spriteHits x y n s idx = true := by
  have hflag := (blitRows_spec (s.reg x).toNat (s.reg y).toNat 0 _ (s.fb, false)
    (length_spriteRows_le n s)).2
  simpa [drawn, flagByte_toNat, blit, spriteHits] using hflag

variable {x y}

theorem drawn_reg_of_ne {r : Reg} (h : r ≠ VF) : (drawn x y n s).reg r = s.reg r :=
  (State.reg_setReg _ VF r _).trans (if_neg h)

/-- A draw keeps its own sprite and its place: only `VF`, the display and `DRAW_PENDING` are written. -/
theorem spriteHits_drawn (hx : x ≠ VF) (hy : y ≠ VF) :
    spriteHits x y n (drawn x y n s) = spriteHits x y n s := by
  funext idx
  simp only [spriteHits, drawn_reg_of_ne n s hx, drawn_reg_of_ne n s hy, spriteRows_eq_map, effAddr,
    drawn_i, drawn_mem]

end

/-! ### DRW once and twice (R173, R177) -/

/-- Settles O34: a pixel and the flag by `drawn_pixel` and `drawn_reg_VF_iff`, with what the sprite hits in
closed form. -/
theorem drawXorsWrappedSprite : Obligations.DrawXorsWrappedSprite := by
  intro x y n s hle
  refine ⟨_, exec_drw_of_le hle, drawn_frame x y n s, fun px py hx hy => ?pixel,
    fun r => drawn_reg_of_ne n s, drawn_reg_VF_le x y n s, ?flag, rfl⟩
  case pixel => rw [drawn_pixel x y n s (by omega), spriteHits_eq_covers x y n s hx hy]
  case flag =>
    rw [drawn_reg_VF_iff, exists_pixel_iff]
    refine exists_congr fun px => exists_congr fun py => and_congr_right fun hx =>
      and_congr_right fun hy => ?_
    rw [spriteHits_eq_covers x y n s hx hy]

/-- For a pixel `a` and a sprite bit `b`: the bit falls on a lit pixel of the drawn display exactly when
drawing it lit the pixel. -/
theorem xor_lit_iff (a b : Bool) : ((a ^^ b) = true ∧ b = true) ↔ a = false ∧ (a ^^ b) = true := by
  revert a b
  decide

/-- Settles O36: both draws hit the same pixels, and XOR with the same bit twice is the identity. -/
theorem drawTwiceRestoresDisplay : Obligations.DrawTwiceRestoresDisplay := by
  intro x y n s hx hy hle
  have hhits := spriteHits_drawn n s hx hy
  refine ⟨drawn x y n s, drawn x y n (drawn x y n s), exec_drw_of_le hle, exec_drw_of_le hle,
    fun idx hidx => ?restored, ?flag⟩
  case restored =>
    rw [drawn_pixel x y n _ hidx, drawn_pixel x y n s hidx, hhits, Bool.xor_assoc, Bool.xor_self,
      Bool.xor_false]
  case flag =>
    rw [drawn_reg_VF_iff, hhits]
    refine exists_congr fun idx => and_congr_right fun hidx => ?_
    rw [drawn_pixel x y n s hidx]
    exact xor_lit_iff _ _

/-! ### The writers of the display and of `DRAW_PENDING` (R170, R175) -/

theorem fb_or_drawPending_mem_writtenParts {i : Instr}
    (h : Part.fb ∈ writtenParts i ∨ Part.drawPending ∈ writtenParts i) :
    i = .cls ∨ ∃ x y n, i = .drw x y n := by
  cases i <;> simp [writtenParts] at h ⊢

/-- No instruction clears `DRAW_PENDING`: the two that write it set it. -/
theorem exec_keeps_drawPending (i : Instr) {s : State} (h : s.drawPending = true) :
    NextHas (exec i s) fun t => t.drawPending = true := by
  by_cases hi : Part.drawPending ∈ writtenParts i
  · obtain rfl | ⟨x, y, n, rfl⟩ := fb_or_drawPending_mem_writtenParts (.inr hi)
    · exact nextHas_next rfl
    · intro t ht
      obtain ⟨-, rfl⟩ | ⟨-, -, rfl⟩ := exec_drw_cases ht
      · rfl
      · exact h
  · exact fun t ht => (exec_frame i s t ht .drawPending hi).trans h

/-- Settles O46: the writers by the frame of `exec`. -/
theorem onlyClearAndDrawWriteDisplay : Obligations.OnlyClearAndDrawWriteDisplay := by
  refine fun i s t ht => ⟨fun hchanged => ?_, fun h => exec_keeps_drawPending i h t ht⟩
  exact fb_or_drawPending_mem_writtenParts
    (hchanged.imp (mem_writtenParts_of_changed ht) (mem_writtenParts_of_changed ht))

end Sys2Proof.Machine
end

section
/-! The keypad instructions (spec/46_keypad.md): the skips on a key's state and the wait for a key. -/

namespace Sys2Proof.Machine

/-! ### The key skips (R181, R182, R184) -/

section
variable {x : Reg} {s : State}

theorem exec_skp_of_le (h : (s.reg x).toNat ≤ 15) :
    exec (.skp x) s = .next (s.skipIf (keyDown s.keys (s.reg x).toNat)) :=
  if_neg h.not_gt

theorem exec_skp_of_gt (h : (s.reg x).toNat > 15) :
    exec (.skp x) s = .next (raise .keyIndexRange s) :=
  if_pos h

theorem exec_sknp_of_le (h : (s.reg x).toNat ≤ 15) :
    exec (.sknp x) s = .next (s.skipIf (!keyDown s.keys (s.reg x).toNat)) :=
  if_neg h.not_gt

theorem exec_sknp_of_gt (h : (s.reg x).toNat > 15) :
    exec (.sknp x) s = .next (raise .keyIndexRange s) :=
  if_pos h

end

theorem skipIf_not_pc_toNat (s : State) (c : Bool) :
    (s.skipIf (!c)).pc.toNat = if c then s.pc.toNat else (s.pc.toNat + 2) % 65536 := by
  rw [skipIf_pc_toNat]
  cases c with
  | false => rfl
  | true => rfl

/-- Settles O37: up to key 15 each is a `skipIf` on the key's bit or on its negation, above it fault entry
alone. -/
theorem keySkipsFollowKeyState : Obligations.KeySkipsFollowKeyState := by
  refine fun x s => ⟨fun hle => ⟨?skp, ?sknp⟩, fun hgt => ⟨?skpFault, ?sknpFault⟩⟩
  case skp => exact ⟨_, exec_skp_of_le hle, skipIf_frame s _, skipIf_pc_toNat s _⟩
  case sknp => exact ⟨_, exec_sknp_of_le hle, skipIf_frame s _, skipIf_not_pc_toNat s _⟩
  case skpFault => exact ⟨_, exec_skp_of_gt hgt, faultTaken_raise .keyIndexRange s⟩
  case sknpFault => exact ⟨_, exec_sknp_of_gt hgt, faultTaken_raise .keyIndexRange s⟩

/-! ### The wait for a key (R183, R185) -/

section
variable {x : Reg} {s : State}

/-- With a key down, the wait ends in one register write: the number of the least such key. -/
theorem exec_ldVxK_of_least {k : Nat} (hk : k ≤ 15) (hdown : keyDown s.keys k = true)
    (hleast : ∀ j : Nat, j < k → keyDown s.keys j = false) :
    exec (.ldVxK x) s = .next (s.setReg x (BitVec.ofNat 8 k)) := by
  have hkey : lowestKeyDown s.keys = some k :=
    firstKeyDown_eq_some (Nat.zero_le k) (by omega) hdown hleast
  simp only [exec, execLdVxK, hkey]

theorem exec_ldVxK_of_allUp (hup : ∀ k : Nat, k ≤ 15 → keyDown s.keys k = false) :
    exec (.ldVxK x) s = .next s.retreatPc := by
  have hkey : lowestKeyDown s.keys = none :=
    firstKeyDown_eq_none fun j _ hj => hup j (by omega)
  simp only [exec, execLdVxK, hkey]

end

theorem retreatPc_frame (s : State) : Frame [.pc] s s.retreatPc := setPc_frame s _

/-- The subtraction wraps at 16 bits: no 12-bit mask is applied to `pc` (D8). -/
theorem retreatPc_pc_toNat (s : State) : s.retreatPc.pc.toNat = (s.pc.toNat + 65534) % 65536 := by
  rw [State.retreatPc_pc, BitVec.toNat_sub, Nat.add_comm]
  rfl

/-- Going back undoes the advance of the fetch, for every `pc`. -/
theorem retreatPc_advancePc (s : State) : s.advancePc.retreatPc = s := by
  have hpc : s.pc + 2 - 2 = s.pc := BitVec.add_sub_cancel s.pc 2
  exact congrArg s.setPc hpc

/-- Settles O38. -/
theorem keyWaitStoresLeastKey : Obligations.KeyWaitStoresLeastKey := by
  refine fun x s => ⟨fun k hk hdown hleast => ?stored, fun hup => ?waiting⟩
  case stored =>
    refine ⟨_, exec_ldVxK_of_least hk hdown hleast, setReg_frame s x _, fun r => ?_⟩
    rw [State.reg_setReg_toNat, byte_toNat_of_lt (by omega)]
  case waiting => exact ⟨_, exec_ldVxK_of_allUp hup, retreatPc_frame s, retreatPc_pc_toNat s⟩

/-- Settles O39: the fetch has advanced `pc` by 2, and the wait moves it back by 2. -/
theorem keyWaitStepIsIdentity : Obligations.KeyWaitStepIsIdentity := by
  intro s x hrun hsched hpc hdecode hup
  have hs : AboutToRun (.ldVxK x) s := ⟨hrun, hsched, hpc, hdecode⟩
  calc step s = exec (.ldVxK x) s.advancePc := hs.step_eq_exec
    _ = .next s.advancePc.retreatPc := exec_ldVxK_of_allUp (s := s.advancePc) hup
    _ = .next s := by rw [retreatPc_advancePc]

end Sys2Proof.Machine
end

section
/-! The timers (spec/47_timers.md): the instructions that move a byte to or from one, and the tick that
counts both down. -/

namespace Sys2Proof.Machine

/-- Settles O40: each is one write, of `V[x]` (R191), of `DT` (R192) or of `ST` (R193). -/
theorem timerMovesOneByte : Obligations.TimerMovesOneByte := by
  intro x s
  refine ⟨?ldVxDt, ?ldDtVx, ?ldStVx⟩
  case ldVxDt => exact exec_of_setReg rfl
  case ldDtVx => exact ⟨_, rfl, setDt_frame s _, rfl⟩
  case ldStVx => exact ⟨_, rfl, setSt_frame s _, rfl⟩

theorem tick_frame (s : State) : Frame [.dt, .st] s (tick s) :=
  ((setDt_frame s _).comp (setSt_frame _ _)).mono (by decide)

/-- Settles O41: the clamped count is the subtraction on natural numbers, `countDown_toNat`. -/
theorem tickCountsTimersDown : Obligations.TickCountsTimersDown :=
  fun s => ⟨countDown_toNat s.dt, countDown_toNat s.st, tick_frame s⟩

/-- Settles O42: by induction on the number of ticks, each of them taking 1 off (`tickCountsTimersDown`). -/
theorem timerReachesZeroAfterItsValueInTicks : Obligations.TimerReachesZeroAfterItsValueInTicks := by
  intro s k
  induction k with
  | zero => exact ⟨rfl, rfl⟩
  | succ k ih =>
    obtain ⟨ihdt, ihst⟩ := ih
    obtain ⟨hdt, hst, -⟩ := tickCountsTimersDown (tick^[k] s)
    rw [Function.iterate_succ_apply', hdt, hst, ihdt, ihst]
    exact ⟨Nat.sub_sub _ k 1, Nat.sub_sub _ k 1⟩

end Sys2Proof.Machine
end

section
/-! Fatal errors (spec/60_exceptions.md): which instruction takes which, what a step that takes one leaves,
and what can happen to the halted core. -/

namespace Sys2Proof.Machine

/-! ### The halted core (R205, R212) -/

/-- What an event other than `reset` can change while the core is halted: the timers by a tick, the keys
and `DRAW_PENDING` by their own events; `step` and `load` are ignored. -/
theorem applyEvent_frame_of_halted {e : Event} {s : State} (h : s.halted = true) (he : e ≠ .reset) :
    NextHas (applyEvent e s) (Frame [.dt, .st, .keys, .drawPending] s) := by
  cases e with
  | step =>
    simp only [applyEvent, cycle_of_halted h]
    exact nextHas_next (Frame.refl _ s)
  | tick => exact nextHas_next ((tick_frame s).mono (by decide))
  | setKeys keys => exact nextHas_next ((setKeys_frame s keys).mono (by decide))
  | drawAck => exact nextHas_next ((drawAck_frame s).mono (by decide))
  | load bytes =>
    simp only [applyEvent, loadImage_of_halted bytes h]
    exact nextHas_next (Frame.refl _ s)
  | reset => exact absurd rfl he

theorem step_frame_of_halted {s : State} (h : s.halted = true) (hreset : s.schedule.head? ≠ some .reset) :
    NextHas (step s) (Frame [.dt, .st, .keys, .drawPending, .schedule] s) := by
  cases hs : s.schedule with
  | nil =>
    rw [step_of_schedule_nil hs, cycle_of_halted h]
    exact nextHas_next (Frame.refl _ s)
  | cons e es =>
    have he : e ≠ .reset := by rintro rfl; exact hreset (by rw [hs]; rfl)
    rw [step_eq_applyEvent hs]
    intro t ht
    have hframe := applyEvent_frame_of_halted (s := s.setSchedule es) h he t ht
    exact ((setSchedule_frame s es).comp hframe).mono (by decide)

/-- Settles O10: the fault state is among the parts that `step_frame_of_halted` keeps. -/
theorem onlyResetLeavesHaltedState : Obligations.OnlyResetLeavesHaltedState := by
  intro s t h ht hreset
  have hframe := step_frame_of_halted h hreset t ht
  obtain ⟨hhalted, hcause⟩ : Part.fault.same s t := hframe .fault (by decide)
  exact ⟨hhalted.trans h, hcause, hframe⟩

/-! ### The fault table (R201, R203, R204, R207, R208) -/

/-- THE EXECUTE PHASE HAS TWO OUTCOMES: off the fault table the fault state is kept, and on it the
instruction is fault entry alone, with the fault of the table. -/
theorem exec_fault_cases (i : Instr) (s : State) : NextHas (exec i s) fun t =>
    (tableFault i s = none ∧ Part.fault.same s t) ∨
      ∃ f : Fault, tableFault i s = some f.code.toNat ∧ t = raise f s := by
  intro t ht
  cases i with
  | call nnn =>
    obtain ⟨hlt, rfl⟩ | ⟨hfull, rfl⟩ := exec_call_cases ht
    · exact .inl ⟨if_neg hlt.ne, rfl, rfl⟩
    · exact .inr ⟨.stackOverflow, if_pos hfull, rfl⟩
  | ret =>
    obtain ⟨k, hk, hsp, rfl⟩ | ⟨hempty, rfl⟩ := exec_ret_cases ht
    · exact .inl ⟨if_neg (by omega), rfl, rfl⟩
    · exact .inr ⟨.stackUnderflow, if_pos hempty, rfl⟩
  | ldB x =>
    obtain ⟨hle, rfl⟩ | ⟨hgt, rfl⟩ := exec_ldB_cases ht
    · exact .inl ⟨if_neg hle.not_gt, rfl, rfl⟩
    · exact .inr ⟨.outOfBounds, if_pos hgt, rfl⟩
  | dump x =>
    obtain ⟨hle, rfl⟩ | ⟨hgt, rfl⟩ := exec_dump_cases ht
    · exact .inl ⟨if_neg hle.not_gt, rfl, rfl⟩
    · exact .inr ⟨.outOfBounds, if_pos hgt, rfl⟩
  | load x =>
    obtain ⟨hle, rfl⟩ | ⟨hgt, rfl⟩ := exec_load_cases ht
    · exact .inl ⟨if_neg hle.not_gt, rfl, rfl⟩
    · exact .inr ⟨.outOfBounds, if_pos hgt, rfl⟩
  | drw x y n =>
    obtain ⟨hle, rfl⟩ | ⟨hn, hgt, rfl⟩ := exec_drw_cases ht
    · exact .inl ⟨if_neg (by simp only [effAddr] at hle; omega), rfl, rfl⟩
    · exact .inr ⟨.outOfBounds, if_pos (by simp only [effAddr] at hgt; omega), rfl⟩
  | skp x =>
    obtain ⟨hle, rfl⟩ | ⟨hgt, rfl⟩ := exec_skp_cases ht
    · exact .inl ⟨if_neg hle.not_gt, skipIf_frame s _ .fault (by decide)⟩
    · exact .inr ⟨.keyIndexRange, if_pos hgt, rfl⟩
  | sknp x =>
    obtain ⟨hle, rfl⟩ | ⟨hgt, rfl⟩ := exec_sknp_cases ht
    · exact .inl ⟨if_neg hle.not_gt, skipIf_frame s _ .fault (by decide)⟩
    · exact .inr ⟨.keyIndexRange, if_pos hgt, rfl⟩
  | _ => exact .inl ⟨rfl, exec_frame _ s t ht .fault (by simp [writtenParts])⟩

/-- Settles O11: by `exec_fault_cases`. -/
theorem executeFaultsAreTabledAndPrecise : Obligations.ExecuteFaultsAreTabledAndPrecise := by
  intro i s hrun
  obtain ⟨t, ht⟩ := exec_answers_next i s
  refine ⟨t, ht, ?_⟩
  obtain ⟨htable, hhalted, hcause⟩ | ⟨f, htable, rfl⟩ := exec_fault_cases i s t ht
  · rw [htable]
    exact ⟨hhalted.trans hrun, hcause⟩
  · rw [htable]
    exact faultTaken_raise f s

/-! ### A step that takes a fault (R206, R210) -/

/-- A fault after the fetch finds the schedule without the event taken and `pc` advanced. -/
theorem faultTaken_raise_advancePc (f : Fault) (s : State) :
    FaultTaken f.code.toNat [.pc, .schedule] s (raise f (taken s).advancePc) :=
  ⟨rfl, rfl, ((setSchedule_frame s _).comp (advancePc_frame _)).comp (raise_frame f _)⟩

theorem cycle_of_undecoded {s : State} {e : Reject} (hrun : Running s) (hpc : s.pc.toNat ≤ 0xFFE)
    (he : decodeWord (wordOfBytes (s.mem.read s.pc.toNat) (s.mem.read (s.pc.toNat + 1))) = .error e) :
    cycle s = .next (raise .decodeError s.advancePc) := by
  have hhalted : s.halted = false := hrun
  simp only [cycle, hhalted, Bool.false_eq_true, if_false, State.fetch_of_le hpc, he, takeFault]

/-- Settles O8: the cycle on the state whose schedule has lost the event. -/
theorem illegalWordTakesDecodeError : Obligations.IllegalWordTakesDecodeError := by
  intro s e hnext hrun hpc he
  have hstep : step s = .next (raise .decodeError (taken s).advancePc) :=
    (step_eq_cycle hnext).trans (cycle_of_undecoded (s := taken s) hrun hpc he)
  exact ⟨_, hstep, faultTaken_raise_advancePc .decodeError s,
    add_two_toNat (hpc.trans (by decide)), rfl⟩

/-- A running core that a cycle halts has taken a fault: at the fetch with `pc` as it was, or after it with
`pc` advanced. -/
theorem cycle_fault_cases {s t : State} (hrun : Running s) (ht : cycle s = .next t)
    (hhalted : t.halted = true) :
    (0xFFF ≤ s.pc.toNat ∧ t = raise .outOfBounds s) ∨
      (s.pc.toNat ≤ 0xFFE ∧ ∃ f : Fault, t = raise f s.advancePc) := by
  have hkept : ¬ t.halted = s.halted := by rw [hhalted, hrun]; decide
  obtain ⟨-, rfl⟩ | ⟨-, hpc, rfl⟩ | ⟨-, hpc, rfl⟩ | ⟨i, -, hpc, hi⟩ := cycle_cases ht
  · exact absurd rfl hkept
  · exact .inl ⟨hpc, rfl⟩
  · exact .inr ⟨hpc, _, rfl⟩
  · obtain ⟨-, hsame, -⟩ | ⟨f, -, rfl⟩ := exec_fault_cases i s.advancePc t hi
    · exact absurd hsame hkept
    · exact .inr ⟨hpc, f, rfl⟩

/-- Settles O12: by `cycle_fault_cases` on the state whose schedule has lost the event. -/
theorem faultingStepIsPrecise : Obligations.FaultingStepIsPrecise := by
  intro s t hnext hrun ht hhalted
  have hcycle : cycle (taken s) = .next t := (step_eq_cycle hnext).symm.trans ht
  obtain ⟨hpc, rfl⟩ | ⟨hpc, f, rfl⟩ := cycle_fault_cases (s := taken s) hrun hcycle hhalted
  · exact ⟨((setSchedule_frame s _).comp (raise_frame _ _)).mono (by decide), (if_pos hpc).symm⟩
  · have hlow : s.pc.toNat ≤ 0xFFE := hpc
    obtain ⟨-, -, hframe⟩ := faultTaken_raise_advancePc f s
    rw [if_neg (by omega)]
    exact ⟨hframe, add_two_toNat (hlow.trans (by decide))⟩

end Sys2Proof.Machine
end
